-- ==== Sys2Proof/Word.lean ====
section
/-! DEFINITION. Words and pins: the values the block's ports carry (spec/00_scope.md R16, spec/10_state.md R22, R23). -/

namespace Sys2Proof

/-- The container of a Word. The widest build has 64-bit Words (R9); in a build of width `W` a Word stands in the low
`W` bits and the bits above are 0 (`Word.Fits`). DESIGN CHOICE, log 3. -/
abbrev Word := BitVec 64

/-- `x` is a Word of `n` bits: its unsigned value (R16) is at most `2^n - 1`. -/
abbrev Word.Fits (n : Nat) (x : Word) : Prop := x.toNat < 2 ^ n

/-- `MAX = 2^n - 1` (R16), the largest Word of `n` bits. -/
def Word.max (n : Nat) : Word := BitVec.ofNat 64 (2 ^ n - 1)

/-- One bit of an input port as the caller drives it: a definite 0, a definite 1, or not definite (R23). -/
inductive Pin where
  | low
  | high
  | undriven
deriving DecidableEq, Repr

end Sys2Proof
end

