-- ==== Sys2Proof/Config.lean ====
section
/-! DEFINITION. The build: the parameters of spec/00_scope.md R9 to R14, fixed at build time, and the one free value. -/

namespace Sys2Proof

/-- The legal word widths, and no other (R9; spec/60_exceptions.md R131: an unsupported width cannot be written down). -/
inductive Width where
  | w8
  | w16
  | w32
  | w64
deriving DecidableEq, Repr

/-- The parameter `W` as a number of bits (R9). -/
def Width.bits : Width → Nat
  | .w8 => 8
  | .w16 => 16
  | .w32 => 32
  | .w64 => 64

/-- The build-time check of R131: a width of any other number of bits is no width. -/
def Width.ofBits (n : Nat) : Option Width :=
  if n = 8 then some .w8
  else if n = 16 then some .w16
  else if n = 32 then some .w32
  else if n = 64 then some .w64
  else none

/-- The two datapath strategies (R12; spec/41_datapath.md R100). -/
inductive Strategy where
  | fast
  | fallback
deriving DecidableEq, Repr

/-- How the fallback forms the W-by-W product (R13; spec/41_datapath.md R103). -/
inductive SplitMulImpl where
  | hwMul
  | limbDecomp
deriving DecidableEq, Repr

/-- The build-time configuration (R9 to R14; spec/10_state.md R27, R34). -/
structure Config where
  /-- `W`, R9. -/
  width : Width
  /-- `HAS_NATIVE_128`, R11: read at W = 64 only (spec/60_exceptions.md R132). -/
  hasNative128 : Bool
  /-- `FORCE_FALLBACK`, R12: a verification build's switch, accepted at every legal W (spec/60_exceptions.md R132). -/
  forceFallback : Bool
  /-- `SPLIT_MUL_IMPL`, R13. -/
  splitMulImpl : SplitMulImpl
  /-- `LATENCY`, R14: 0 is the combinational block. -/
  latency : Nat
deriving DecidableEq, Repr

/-- `HAS_NATIVE_DW` (R11; spec/41_datapath.md R101). -/
def Config.hasNativeDW (c : Config) : Bool :=
  match c.width with
  | .w8 => true
  | .w16 => true
  | .w32 => true
  | .w64 => c.hasNative128

/-- `STRATEGY` (R12), by the selection rule of spec/41_datapath.md R101. -/
def Config.strategy (c : Config) : Strategy :=
  if c.hasNativeDW && !c.forceFallback then .fast else .fallback

/-- Why a build is rejected at build time (spec/60_exceptions.md R131): the only reason there is (R132). -/
inductive ConfigError where
  | unsupportedWidth
deriving DecidableEq, Repr

/-- Building a block: rejected for an unsupported width, accepted for every combination of the other parameters
(spec/60_exceptions.md R131, R132). -/
def buildConfig (W : Nat) (hasNative128 forceFallback : Bool) (impl : SplitMulImpl) (latency : Nat) :
    Except ConfigError Config :=
  match Width.ofBits W with
  | some width => .ok ⟨width, hasNative128, forceFallback, impl, latency⟩
  | none => .error .unsupportedWidth

/-- The build `State.reset` stands for. DESIGN CHOICE, log 2: the spec fixes no build; W = 8 is the one width for which
spec/opcode_table.json writes the encoding out. -/
def Config.reference : Config := ⟨.w8, false, false, .limbDecomp, 0⟩

/-- FREE VALUE, log 11: how many steps a transaction of a build with LATENCY > 0 waits, from the build, the number of
waits drawn before it and the pins of its request. The spec gives no upper bound and no value, only that the wait is
finite (spec/70_reset_and_hazards.md R153, R156), and does not say whether it depends on the operands (R157): the
request is an argument so that neither can be proved. -/
opaque Config.freeWait : Config → Nat → List Pin → Nat

end Sys2Proof
end

