-- ==== Sys2Proof/Syntax.lean ====
section
/-! DEFINITION. The instructions: one constructor per row of spec/opcode_table.json, with the operand fields of the
request format TXN (spec/30_encoding.md R60). -/

namespace Sys2Proof

/-- A transaction as the block decodes it (spec/10_state.md R21). -/
inductive Instr where
  /-- `MADD2` (spec/40_word_multiply_add.md R80). It carries the `addend` field it ignores (spec/10_state.md R24), so
  that no bit of a request is lost in decoding. -/
  | madd2 (a b addend carryIn : Word)
  /-- `MADD3` (spec/40_word_multiply_add.md R81). -/
  | madd3 (a b addend carryIn : Word)
deriving DecidableEq, Repr

end Sys2Proof
end

