-- ==== Sys2Proof/WellFormed.lean ====
section
/-! DEFINITION. Well-formed instructions: every operand is a Word of the build's width (spec/10_state.md R22, R23). -/

namespace Sys2Proof

/-- The four operand fields all fit in `W` bits. No operand value of `W` bits is illegal (spec/10_state.md R23). -/
def operandsFit (W : Width) (a b addend carryIn : Word) : Bool :=
  decide (a.Fits W.bits) && decide (b.Fits W.bits) && decide (addend.Fits W.bits) && decide (carryIn.Fits W.bits)

/-- An instruction of a build of width `W`. -/
def Instr.wf (W : Width) : Instr → Bool
  | .madd2 a b addend carryIn => operandsFit W a b addend carryIn
  | .madd3 a b addend carryIn => operandsFit W a b addend carryIn

end Sys2Proof
end

