-- ==== Sys2Proof/Decode.lean ====
section
/-! DEFINITION. The encoding of a transaction (spec/30_encoding.md R60 to R65, R69): the decoder from the pins of the
input ports, the encoder, the packing of a response, and the host's view of a table word. -/

namespace Sys2Proof

/-- The length of a request, `4W + 1` bits (R60, R65). -/
def txnBits (W : Width) : Nat := 4 * W.bits + 1

/-- A Word as the `W` wires of a data port (spec/10_state.md R22). -/
def portBits (W : Width) (x : Word) : BitVec W.bits := x.setWidth W.bits

/-- The `W` wires of a data port as a Word. -/
def ofPortBits (W : Width) (x : BitVec W.bits) : Word := x.setWidth 64

/-- The value of the `op` field that selects the operation (R62). -/
def Instr.op : Instr → Nat
  | .madd2 _ _ _ _ => 0
  | .madd3 _ _ _ _ => 1

/-- `TXN = {carry_in, addend, b, a, op}` by the formula of R60. -/
def packTxn (W : Width) (op : Nat) (a b addend carryIn : Word) : BitVec (txnBits W) :=
  BitVec.ofNat (txnBits W)
    (op + (portBits W a).toNat * 2 + (portBits W b).toNat * 2 ^ (W.bits + 1)
      + (portBits W addend).toNat * 2 ^ (2 * W.bits + 1) + (portBits W carryIn).toNat * 2 ^ (3 * W.bits + 1))

/-- The request vector of an instruction (R60, R62). -/
def encodeTxn (W : Width) (i : Instr) : BitVec (txnBits W) :=
  match i with
  | .madd2 a b addend carryIn => packTxn W (Instr.op i) a b addend carryIn
  | .madd3 a b addend carryIn => packTxn W (Instr.op i) a b addend carryIn

/-- The `W`-bit operand field whose lowest bit is bit `lo` of the request, read unsigned (R60, R63). -/
def txnField (W : Width) (v : BitVec (txnBits W)) (lo : Nat) : Word :=
  ofPortBits W (v.extractLsb' lo W.bits)

/-- Decoding a definite request vector: bit 0 alone selects the operation, so every vector is exactly one operation
(R62, R64). -/
def decodeTxn (W : Width) (v : BitVec (txnBits W)) : Instr :=
  let a := txnField W v 1
  let b := txnField W v (W.bits + 1)
  let addend := txnField W v (2 * W.bits + 1)
  let carryIn := txnField W v (3 * W.bits + 1)
  if v.getLsbD 0 then .madd3 a b addend carryIn else .madd2 a b addend carryIn

/-- The pins that carry the low `n` bits of `v`, bit 0 first (spec/20_memory.md R42). -/
def pinsOf : Nat → Nat → List Pin
  | 0, _ => []
  | n + 1, v => (if v % 2 = 1 then .high else .low) :: pinsOf n (v / 2)

/-- The value on a list of pins, bit 0 first; none where a pin is not definite (spec/10_state.md R23). -/
def pinsValue : List Pin → Option Nat
  | [] => some 0
  | .low :: ps => (pinsValue ps).map (2 * ·)
  | .high :: ps => (pinsValue ps).map (2 * · + 1)
  | .undriven :: _ => none

/-- Why the decoder rejects what is on the pins. -/
inductive DecodeError where
  /-- The list of pins is not the `4W + 1` pins of the build's ports (R65; log 5). -/
  | wrongLength
  /-- A pin is not a definite 0 or 1 (R64; spec/60_exceptions.md R133). -/
  | undrivenInput
deriving DecidableEq, Repr

/-- Decoding a request as driven on the pins of a build of width `W` (R62, R64, R65). Any pin that is not definite
rejects the request, a pin of the ignored `addend` field of MADD2 too (R64). -/
def decode (W : Width) (pins : List Pin) : Except DecodeError Instr :=
  if pins.length = txnBits W then
    match pinsValue pins with
    | some v => .ok (decodeTxn W (BitVec.ofNat (txnBits W) v))
    | none => .error .undrivenInput
  else .error .wrongLength

/-- The pins a caller drives for an instruction (R60). -/
def encode (W : Width) (i : Instr) : List Pin := pinsOf (txnBits W) (encodeTxn W i).toNat

/-- `RSP = {carry_out, lo}` (R61). -/
def encodeResponse (W : Width) (lo carryOut : Word) : BitVec (2 * W.bits) :=
  BitVec.ofNat (2 * W.bits) ((portBits W carryOut).toNat * 2 ^ W.bits + (portBits W lo).toNat)

/-- The pins for a word of `nbits` bits numbered as spec/opcode_table.json numbers them: bit 0 first, every pin above
the word low. A word that has a 1 beyond the request's `4W + 1` bits is laid out longer, so that the decoder rejects it.
The block has no bytes and no byte order (spec/20_memory.md R42; log 18). -/
def tablePins (W : Width) (nbits w : Nat) : List Pin :=
  let v := w % 2 ^ nbits
  if v < 2 ^ txnBits W then pinsOf (txnBits W) v else pinsOf nbits v

/-- The instruction the decoder of the reference build (log 2) reads from a table word. -/
def decodeTableWord (nbits w : Nat) : Option Instr :=
  (decode Config.reference.width (tablePins Config.reference.width nbits w)).toOption

end Sys2Proof
end

