-- ==== Sys2Proof/Machine/State.lean ====
section
/-! DEFINITION. The state a model of the block carries (spec/10_state.md R34), the caller harness's statements
(spec/30_encoding.md R67, R68), the scoreboard (spec/70_reset_and_hazards.md R153), the reasons a step can stop, and the
state at reset. -/

namespace Sys2Proof.Machine

/-- The name of a caller cell. The spec's names are any words; a number stands for each (log 15). -/
abbrev CellName := Nat

/-- The caller's written cells: names strictly rising, and a cell that nothing has written is not listed
(spec/10_state.md R32; log 15). -/
abbrev Cells := List (CellName × Word)

/-- An operand `ra`, `rb` or `rc` of a harness statement: a cell or an immediate `#value` (spec/30_encoding.md R67). -/
inductive Operand where
  | cell (c : CellName)
  | imm (value : Word)
deriving DecidableEq, Repr

/-- A statement of the caller harness (spec/30_encoding.md R67, R68). -/
inductive Stmt where
  /-- `LI rd, #value`. -/
  | li (rd : CellName) (value : Word)
  /-- `MOV rd, rs`. -/
  | mov (rd rs : CellName)
  /-- `MADD2 rd, ra, rb, rk`. -/
  | madd2 (rd : CellName) (ra rb : Operand) (rk : CellName)
  /-- `MADD3 rd, ra, rb, rc, rk`. -/
  | madd3 (rd : CellName) (ra rb rc : Operand) (rk : CellName)
deriving DecidableEq, Repr

/-- The output ports `lo` and `carry_out` of one transaction, produced together (spec/10_state.md R21, R22;
spec/20_memory.md R43). -/
structure Response where
  lo : Word
  carryOut : Word
deriving DecidableEq, Repr

/-- The cells a harness statement names for a transaction's outputs: `rd` for `lo`, `rk` for `carry_out`
(spec/30_encoding.md R67). -/
structure Dest where
  rd : CellName
  rk : CellName
deriving DecidableEq, Repr

/-- An issued, incomplete transaction of a build with LATENCY > 0 (spec/70_reset_and_hazards.md R153): the cells it owns
(none for a request the caller drives directly), its outputs, and how many steps it still waits (log 11). -/
structure Pending where
  dest : Option Dest
  rsp : Response
  wait : Nat
deriving DecidableEq, Repr

/-- What the model carries (spec/10_state.md R34). The block itself holds nothing (R20). -/
structure State where
  /-- The build. No step writes it (spec/10_state.md R27; log 1). -/
  cfg : Config
  /-- The input ports: the pins of the request the caller presents, or none (spec/10_state.md R22, R34). The step that
  takes a request leaves none presented (log 23). -/
  request : Option (List Pin)
  /-- The output ports: what the latest completed transaction gave, or none yet (spec/70_reset_and_hazards.md R151;
  log 7). -/
  rsp : Option Response
  /-- The caller's cells, the carry cell among them (spec/10_state.md R30, R32). -/
  cells : Cells
  /-- The harness's program (spec/30_encoding.md R67; log 8). -/
  program : List Stmt
  /-- The harness's statement index (spec/10_state.md R25). -/
  pc : Nat
  /-- The scoreboard, oldest transaction first (spec/70_reset_and_hazards.md R153). -/
  inFlight : List Pending
  /-- The model's own counter, not the spec's: how many free waits have been drawn (log 11). -/
  waitsDrawn : Nat
deriving DecidableEq, Repr

/-- The model's fault outcomes (spec/60_exceptions.md R133). No fault is an exception of the block (R130). -/
inductive Fault where
  /-- An input bit of a presented transaction is not a definite 0 or 1. Raised by `transact`. Safe: the model stops
  where hardware would read some value (decision D20). -/
  | undrivenInput
  /-- A harness statement reads a caller cell nothing has written. Raised by `runStmt`. Safe (decision D11). -/
  | unwrittenCell
  /-- A harness `MADD2` or `MADD3` names one cell as `rd` and `rk`. Raised by `runStmt`. Safe (decision D26). -/
  | destEqualsCarry
deriving DecidableEq, Repr

/-- What the model gives no meaning to, by name. -/
inductive Refusal where
  /-- An instruction that has no meaning yet: raised by an arm of `exec` alone, and no arm does. Safe. -/
  | notModelled (mnemonic : String)
  /-- An operand or immediate is beyond `MAX`, so it is no Word of the build (spec/10_state.md R22; spec/30_encoding.md
  R67). Raised by the meanings and by `runStmt`. No decoded request raises it. Safe (log 4). -/
  | operandTooWide
  /-- The presented request is not a vector of the build's `4W + 1` pins (spec/30_encoding.md R65). Raised by
  `transact`. Safe (log 5). -/
  | requestLength
deriving DecidableEq, Repr

/-- A build right after reset: nothing presented, no output, every cell unwritten, no statement, nothing issued
(spec/70_reset_and_hazards.md R150 to R152; spec/10_state.md R32, R34). -/
def State.resetOf (c : Config) : State :=
  { cfg := c, request := none, rsp := none, cells := [], program := [], pc := 0, inFlight := [], waitsDrawn := 0 }

/-- The reference build (log 2) right after reset. -/
def State.reset : State := State.resetOf Config.reference

end Sys2Proof.Machine
end

