-- ==== Sys2Proof/Machine/Flags.lean ====
section
/-! DEFINITION. The block has no flags or condition codes (spec/10_state.md R26). What stands here is the fallback's
internal one-bit overflow indication (spec/41_datapath.md R107), which is no output. -/

namespace Sys2Proof.Machine

/-- Overflow of a W-bit add of the term `t` whose wrapped sum is `sum`: the sum is smaller than the added term (R107). -/
def addOverflow {w : Nat} (sum t : BitVec w) : Bool := decide (sum.toNat < t.toNat)

/-- The indication as a W-bit 0 or 1, as the fallback adds it into its high word (R104, R105, R111). -/
def overflowWord {w : Nat} (sum t : BitVec w) : BitVec w := if addOverflow sum t then 1#w else 0#w

end Sys2Proof.Machine
end

