-- ==== Sys2Proof/Machine/SplitMultiply.lean ====
section
/-! DEFINITION. The sub-block split_multiply_fallback (spec/41_datapath.md R103, R111): the W-by-W product as two W-bit
halves. Every register is W bits and every add wraps; that nothing is lost is R112. -/

namespace Sys2Proof.Machine

/-- A W-bit register's low half `x[H-1:0]`, `H = W/2`, zero-extended (R111). -/
def lowHalf {w : Nat} (x : BitVec w) : BitVec w := (x.setWidth (w / 2)).setWidth w

/-- A W-bit register's high half `x[W-1:H]`, that is `x >> H` (R111). -/
def highHalf {w : Nat} (x : BitVec w) : BitVec w := x >>> (w / 2)

/-- The W-bit registers of the limb decomposition, in the order R111 computes them. -/
structure LimbSteps (w : Nat) where
  /-- `a1 * b1` -/
  x0 : BitVec w
  /-- `a0 * b1` -/
  x1 : BitVec w
  /-- `a1 * b0` -/
  x2 : BitVec w
  /-- `a0 * b0` -/
  x3 : BitVec w
  /-- `x2 + (x3 >> H)` -/
  x2Mid : BitVec w
  /-- `(x2 + x1) mod 2^W` -/
  x2Final : BitVec w
  /-- overflow of the previous add -/
  cy : BitVec w
  /-- `x0 + (cy << H)` -/
  x0Final : BitVec w
  /-- high word of the product -/
  ph : BitVec w
  /-- low word of the product -/
  pl : BitVec w
deriving DecidableEq, Repr

/-- The limb decomposition (R111), step for step. -/
def limbSteps {w : Nat} (a b : BitVec w) : LimbSteps w :=
  let x0 := highHalf a * highHalf b
  let x1 := lowHalf a * highHalf b
  let x2 := highHalf a * lowHalf b
  let x3 := lowHalf a * lowHalf b
  let x2Mid := x2 + highHalf x3
  let x2Final := x2Mid + x1
  let cy := overflowWord x2Final x1
  let x0Final := x0 + cy <<< (w / 2)
  let ph := x0Final + highHalf x2Final
  let pl := lowHalf x2Final <<< (w / 2) + lowHalf x3
  { x0, x1, x2, x3, x2Mid, x2Final, cy, x0Final, ph, pl }

/-- A 2W-bit value as two W-bit halves (low, high), by shifting and masking (R102). -/
def splitDouble {w : Nat} (S : BitVec (2 * w)) : BitVec w × BitVec w := (S.extractLsb' 0 w, S.extractLsb' w w)

/-- The exact W-by-W product in 2W bits (R102). -/
def wideProduct {w : Nat} (a b : BitVec w) : BitVec (2 * w) := a.setWidth (2 * w) * b.setWidth (2 * w)

/-- `SplitMul(a, b) -> (pl, ph)` (R103), by a hardware multiplier or by the limb decomposition. -/
def splitMul {w : Nat} (impl : SplitMulImpl) (a b : BitVec w) : BitVec w × BitVec w :=
  match impl with
  | .hwMul => splitDouble (wideProduct a b)
  | .limbDecomp => ((limbSteps a b).pl, (limbSteps a b).ph)

end Sys2Proof.Machine
end

