-- ==== Sys2Proof/Machine/CarryAdderTree.lean ====
section
/-! DEFINITION. The sub-block carry_adder_tree (spec/41_datapath.md R106): the additive terms added to the product, as
2W-bit adds (fast form) or as a chain of W-bit add-and-detect stages (fallback form). -/

namespace Sys2Proof.Machine

/-- Fast form with one term (R102, R110). -/
def fastTree1 {w : Nat} (p : BitVec (2 * w)) (carryIn : BitVec w) : BitVec (2 * w) := p + carryIn.setWidth (2 * w)

/-- Fast form with two terms (R102, R110). -/
def fastTree2 {w : Nat} (p : BitVec (2 * w)) (addend carryIn : BitVec w) : BitVec (2 * w) :=
  p + addend.setWidth (2 * w) + carryIn.setWidth (2 * w)

/-- One fallback stage on the running `(lo, hi)`: add the term to `lo`, then the detected carry to `hi` (R104, R107). -/
def addStage {w : Nat} (t : BitVec w) (p : BitVec w × BitVec w) : BitVec w × BitVec w :=
  (p.1 + t, p.2 + overflowWord (p.1 + t) t)

/-- Fallback form with one term (R104). -/
def stagedTree1 {w : Nat} (p : BitVec w × BitVec w) (carryIn : BitVec w) : BitVec w × BitVec w := addStage carryIn p

/-- Fallback form with two terms: `addend` first, each carry resolved before the next add (R105, R108; log 16). -/
def stagedTree2 {w : Nat} (p : BitVec w × BitVec w) (addend carryIn : BitVec w) : BitVec w × BitVec w :=
  addStage carryIn (addStage addend p)

end Sys2Proof.Machine
end

