-- ==== Sys2Proof/Machine/Datapath.lean ====
section
/-! DEFINITION. The two datapath strategies (spec/41_datapath.md R100 to R105) and the build's choice of one. Every
function answers `(lo, carry_out)`. -/

namespace Sys2Proof.Machine

/-- Fast path, MADD2 (R102). -/
def fastMadd2 {w : Nat} (a b carryIn : BitVec w) : BitVec w × BitVec w :=
  splitDouble (fastTree1 (wideProduct a b) carryIn)

/-- Fast path, MADD3 (R102). -/
def fastMadd3 {w : Nat} (a b addend carryIn : BitVec w) : BitVec w × BitVec w :=
  splitDouble (fastTree2 (wideProduct a b) addend carryIn)

/-- Fallback path, MADD2 (R104). -/
def fallbackMadd2 {w : Nat} (impl : SplitMulImpl) (a b carryIn : BitVec w) : BitVec w × BitVec w :=
  stagedTree1 (splitMul impl a b) carryIn

/-- Fallback path, MADD3 (R105). -/
def fallbackMadd3 {w : Nat} (impl : SplitMulImpl) (a b addend carryIn : BitVec w) : BitVec w × BitVec w :=
  stagedTree2 (splitMul impl a b) addend carryIn

/-- MADD2 by the strategy the build has (R100, R101). -/
def datapathMadd2 (c : Config) {w : Nat} (a b carryIn : BitVec w) : BitVec w × BitVec w :=
  match c.strategy with
  | .fast => fastMadd2 a b carryIn
  | .fallback => fallbackMadd2 c.splitMulImpl a b carryIn

/-- MADD3 by the strategy the build has (R100, R101). -/
def datapathMadd3 (c : Config) {w : Nat} (a b addend carryIn : BitVec w) : BitVec w × BitVec w :=
  match c.strategy with
  | .fast => fastMadd3 a b addend carryIn
  | .fallback => fallbackMadd3 c.splitMulImpl a b addend carryIn

end Sys2Proof.Machine
end

