-- ==== Sys2Proof/Machine/Ops.lean ====
section
/-! DEFINITION. The named operations over the caller's cells, the ports and the scoreboard. There is no memory
(spec/20_memory.md R40) and no exception entry or return (spec/60_exceptions.md R136), so none stands here. -/

namespace Sys2Proof.Machine

/-- The value of a cell; none where nothing has written it (spec/10_state.md R32). -/
def lookupCell : Cells → CellName → Option Word
  | [], _ => none
  | (n, v) :: rest, c => if n = c then some v else lookupCell rest c

/-- Writing a cell, in the list's canonical form (log 15). -/
def insertCell : Cells → CellName → Word → Cells
  | [], c, v => [(c, v)]
  | (n, u) :: rest, c, v =>
    if c < n then (c, v) :: (n, u) :: rest
    else if c = n then (c, v) :: rest
    else (n, u) :: insertCell rest c v

/-- Reading a caller cell (spec/10_state.md R32). -/
def State.readCell (s : State) (c : CellName) : Option Word := lookupCell s.cells c

/-- Writing a caller cell. -/
def State.writeCell (s : State) (c : CellName) (v : Word) : State := { s with cells := insertCell s.cells c v }

/-- The harness goes on to its next statement (spec/10_state.md R25). -/
def State.advance (s : State) : State := { s with pc := s.pc + 1 }

/-- The caller presents a request on the input ports (spec/10_state.md R21). -/
def State.present (s : State) (pins : List Pin) : State := { s with request := some pins }

/-- The block has sampled its inputs (spec/20_memory.md R43). DESIGN CHOICE, log 23: nothing is presented any more, so
that one presentation is one transaction (spec/10_state.md R21); the spec says of the input ports only that the caller
drives them (R34) and gives no handshake. -/
def State.sampled (s : State) : State := { s with request := none }

/-- Both output ports are driven together (spec/20_memory.md R43). -/
def State.driveOutputs (s : State) (r : Response) : State := { s with rsp := some r }

/-- The caller writes a transaction's outputs to the cells it named: `rd <- lo`, `rk <- carry_out`
(spec/30_encoding.md R67, spec/10_state.md R30). A request driven directly names none. -/
def writeBack (dest : Option Dest) (r : Response) (s : State) : State :=
  match dest with
  | none => s
  | some d => (s.writeCell d.rd r.lo).writeCell d.rk r.carryOut

/-- The cells a transaction will write (spec/30_encoding.md R67). -/
def destCells : Option Dest → List CellName
  | none => []
  | some d => [d.rd, d.rk]

/-- The cell is owned by an incomplete transaction of the scoreboard (spec/70_reset_and_hazards.md R153, R154). -/
def ownedIn (fl : List Pending) (c : CellName) : Bool := fl.any fun p => decide (c ∈ destCells p.dest)

/-- A transaction completes: its outputs are on the ports and in the cells it owned (spec/70_reset_and_hazards.md R153). -/
def retire (p : Pending) (s : State) : State := writeBack p.dest p.rsp (s.driveOutputs p.rsp)

/-- One step of waiting for every incomplete transaction (log 11). -/
def countDown (fl : List Pending) : List Pending := fl.map fun p => { p with wait := p.wait - 1 }

/-- The oldest transaction whose wait is over, and the others (log 12). -/
def takeReady : List Pending → Option (Pending × List Pending)
  | [] => none
  | p :: rest =>
    if p.wait = 0 then some (p, rest)
    else
      match takeReady rest with
      | none => none
      | some (q, others) => some (q, p :: others)

/-- The scoreboard's part of a step: every wait goes down by one, and at most one transaction completes
(spec/70_reset_and_hazards.md R153, R156; log 12). -/
def tick (s : State) : State :=
  match takeReady (countDown s.inFlight) with
  | none => { s with inFlight := countDown s.inFlight }
  | some (p, others) => retire p { s with inFlight := others }

/-- What follows the block's answer `t` to a request made in the state `before`. Combinational build: the outputs are on
the ports and the caller writes them back at once (spec/20_memory.md R43, R48). Timed build: the transaction is
incomplete, its outputs are not visible yet, the ports keep the answer they showed, and it owns the cells it will write
(spec/70_reset_and_hazards.md R151, R153; log 7, log 10). Its wait is free and may depend on the request
(spec/70_reset_and_hazards.md R157; log 11). DESIGN CHOICE, log 24: it joins the others however many they are, since
spec/70_reset_and_hazards.md R156 leaves pipelining to the implementer. -/
def settle (before : State) (dest : Option Dest) (t : State) : State :=
  match t.rsp with
  | none => t
  | some r =>
    if t.cfg.latency = 0 then writeBack dest r t
    else
      { t with
        rsp := before.rsp
        inFlight := t.inFlight ++ [⟨dest, r, Config.freeWait t.cfg t.waitsDrawn (before.request.getD [])⟩]
        waitsDrawn := t.waitsDrawn + 1 }

end Sys2Proof.Machine
end

