-- ==== Sys2Proof/Machine/Operands.lean ====
section
/-! DEFINITION. Operand forms: the operands of a harness statement (spec/30_encoding.md R67). The operands of a
transaction are plain Words (spec/30_encoding.md R63), so they have no forms of their own. -/

namespace Sys2Proof.Machine

/-- The value of a harness operand: an immediate, or the old value of a cell (spec/10_state.md R33); none where the cell
is unwritten (spec/10_state.md R32). -/
def readOperand (s : State) : Operand → Option Word
  | .cell c => s.readCell c
  | .imm v => some v

/-- The cell an operand names, if any. -/
def Operand.cells : Operand → List CellName
  | .cell c => [c]
  | .imm _ => []

/-- An immediate is at most MAX (spec/30_encoding.md R67). -/
def Operand.fits (W : Width) : Operand → Bool
  | .cell _ => true
  | .imm v => decide (v.Fits W.bits)

/-- The cells a statement reads. -/
def Stmt.reads : Stmt → List CellName
  | .li _ _ => []
  | .mov _ rs => [rs]
  | .madd2 _ ra rb rk => ra.cells ++ rb.cells ++ [rk]
  | .madd3 _ ra rb rc rk => ra.cells ++ rb.cells ++ rc.cells ++ [rk]

/-- The cells a statement writes. -/
def Stmt.writes : Stmt → List CellName
  | .li rd _ => [rd]
  | .mov rd _ => [rd]
  | .madd2 rd _ _ rk => [rd, rk]
  | .madd3 rd _ _ _ rk => [rd, rk]

/-- Every immediate of a statement is a Word of the build (spec/30_encoding.md R67). -/
def Stmt.fits (W : Width) : Stmt → Bool
  | .li _ v => decide (v.Fits W.bits)
  | .mov _ _ => true
  | .madd2 _ ra rb _ => ra.fits W && rb.fits W
  | .madd3 _ ra rb rc _ => ra.fits W && rb.fits W && rc.fits W

end Sys2Proof.Machine
end

