-- ==== Sys2Proof/Machine/WordMultiplyAdd.lean ====
section
/-! DEFINITION. The meanings of MADD2 and MADD3 (spec/40_word_multiply_add.md R80, R81): the outputs of the build's
datapath, driven on the output ports. That they are the exact sums of R80 and R81 is R113. -/

namespace Sys2Proof.Machine

/-- The two W-bit halves a datapath gives, as the output ports show them (spec/10_state.md R22). -/
def responseOf (W : Width) (p : BitVec W.bits × BitVec W.bits) : Response :=
  { lo := ofPortBits W p.1, carryOut := ofPortBits W p.2 }

/-- The outputs of MADD2: a function of its inputs and the build alone (R80; spec/10_state.md R20). -/
def madd2Response (c : Config) (a b carryIn : Word) : Response :=
  responseOf c.width (datapathMadd2 c (portBits c.width a) (portBits c.width b) (portBits c.width carryIn))

/-- The outputs of MADD3 (R81; spec/10_state.md R20). -/
def madd3Response (c : Config) (a b addend carryIn : Word) : Response :=
  responseOf c.width
    (datapathMadd3 c (portBits c.width a) (portBits c.width b) (portBits c.width addend) (portBits c.width carryIn))

/-- The transaction function of spec/10_state.md R21: the outputs of a transaction from the build and its inputs. -/
def respond (c : Config) (i : Instr) : Response :=
  match i with
  | .madd2 a b _ carryIn => madd2Response c a b carryIn
  | .madd3 a b addend carryIn => madd3Response c a b addend carryIn

/-- `MADD2` (R80). The `addend` field plays no part in the outputs (spec/10_state.md R24). -/
def execMadd2 (a b addend carryIn : Word) (s : State) : Host.Outcome State Fault Refusal :=
  if operandsFit s.cfg.width a b addend carryIn then .next (s.driveOutputs (madd2Response s.cfg a b carryIn))
  else .refused .operandTooWide

/-- `MADD3` (R81). -/
def execMadd3 (a b addend carryIn : Word) (s : State) : Host.Outcome State Fault Refusal :=
  if operandsFit s.cfg.width a b addend carryIn then .next (s.driveOutputs (madd3Response s.cfg a b addend carryIn))
  else .refused .operandTooWide

end Sys2Proof.Machine
end

