-- ==== Sys2Proof/Machine/Dispatch.lean ====
section
/-! DEFINITION. One arm per constructor of Instr (spec/30_encoding.md R62). -/

namespace Sys2Proof.Machine

def exec (i : Instr) (s : State) : Host.Outcome State Fault Refusal :=
  match i with
  | .madd2 a b addend carryIn => Sys2Proof.Machine.execMadd2 a b addend carryIn s
  | .madd3 a b addend carryIn => Sys2Proof.Machine.execMadd3 a b addend carryIn s

end Sys2Proof.Machine
end

