-- ==== Sys2Proof/Machine/Harness.lean ====
section
/-! DEFINITION. A transaction from the pins to the outputs (spec/10_state.md R21, spec/20_memory.md R43), and the caller
harness that issues transactions (spec/30_encoding.md R67, R68; spec/60_exceptions.md R133;
spec/70_reset_and_hazards.md R153). -/

namespace Sys2Proof.Machine

/-- The block takes the request on its pins: it samples them as one unit, decodes, executes, and its answer is settled
(spec/20_memory.md R43). A pin that is not definite faults (spec/60_exceptions.md R133). -/
def transact (dest : Option Dest) (s : State) : Host.Outcome State Fault Refusal :=
  match s.request with
  | none => .next s
  | some pins =>
    match decode s.cfg.width pins with
    | .error .undrivenInput => .fault .undrivenInput
    | .error .wrongLength => .refused .requestLength
    | .ok i =>
      match exec i s.sampled with
      | .next t => .next (settle s dest t)
      | .fault f => .fault f
      | .refused r => .refused r

/-- A harness statement issues a transaction: the harness goes on, the request is on the pins, the block takes it. -/
def issue (rd rk : CellName) (i : Instr) (s : State) : Host.Outcome State Fault Refusal :=
  transact (some ⟨rd, rk⟩) (s.advance.present (encode s.cfg.width i))

/-- The harness drives MADD2's ignored `addend` to 0 (spec/30_encoding.md R67, spec/10_state.md R24). -/
def runMadd2 (rd : CellName) (ra rb : Operand) (rk : CellName) (s : State) : Host.Outcome State Fault Refusal :=
  if rd = rk then .fault .destEqualsCarry
  else
    match readOperand s ra, readOperand s rb, s.readCell rk with
    | some a, some b, some carryIn => issue rd rk (.madd2 a b 0 carryIn) s
    | _, _, _ => .fault .unwrittenCell

/-- `MADD3 rd, ra, rb, rc, rk` (spec/30_encoding.md R67). -/
def runMadd3 (rd : CellName) (ra rb rc : Operand) (rk : CellName) (s : State) : Host.Outcome State Fault Refusal :=
  if rd = rk then .fault .destEqualsCarry
  else
    match readOperand s ra, readOperand s rb, readOperand s rc, s.readCell rk with
    | some a, some b, some addend, some carryIn => issue rd rk (.madd3 a b addend carryIn) s
    | _, _, _, _ => .fault .unwrittenCell

/-- One harness statement (spec/30_encoding.md R67, R68). Its cells are checked before a transaction is issued, so a
harness reason is reported before `UndrivenInput` (spec/60_exceptions.md R133); `DestEqualsCarry` before `UnwrittenCell`
(log 9). A statement that must hold does not come here until its hold ends (log 22). -/
def runStmt (st : Stmt) (s : State) : Host.Outcome State Fault Refusal :=
  if st.fits s.cfg.width then
    match st with
    | .li rd v => .next (s.writeCell rd v).advance
    | .mov rd rs =>
      match s.readCell rs with
      | some v => .next (s.writeCell rd v).advance
      | none => .fault .unwrittenCell
    | .madd2 rd ra rb rk => runMadd2 rd ra rb rk s
    | .madd3 rd ra rb rc rk => runMadd3 rd ra rb rc rk s
  else .refused .operandTooWide

/-- The statement names a cell that an incomplete transaction still owns (spec/70_reset_and_hazards.md R153, R154; for
the cells it writes: log 13). -/
def held (s : State) (st : Stmt) : Bool := (st.reads ++ st.writes).any (ownedIn s.inFlight)

/-- The harness's part of a step: its next statement, or a hold (spec/70_reset_and_hazards.md R153), or nothing where no
statement is left (log 6). DESIGN CHOICE, log 22: a statement that names an owned cell holds first, and a harness fault
(rd = rk, an unwritten cell) or a refusal (an immediate beyond MAX) it would also give is given only once the hold ends. -/
def stepHarness (s : State) : Host.Outcome State Fault Refusal :=
  match s.program[s.pc]? with
  | none => .next s
  | some st => if held s st then .next s else runStmt st s

/-- One step after the scoreboard's part: a request on the pins is taken first, and an undriven pin of it
reported first (DESIGN CHOICE, log 21), else the harness goes on. -/
def stepCaller (s : State) : Host.Outcome State Fault Refusal :=
  match s.request with
  | some _ => transact none s
  | none => stepHarness s

end Sys2Proof.Machine
end

