-- ==== Sys2Proof/Machine/Step.lean ====
section
/-! DEFINITION. One step of the machine, and where a table word is presented. -/

namespace Sys2Proof.Machine

/-- One step: the scoreboard's part, then at most one transaction or harness statement (spec/10_state.md R21;
spec/70_reset_and_hazards.md R153). -/
def step (s : State) : Host.Outcome State Fault Refusal := stepCaller (tick s)

/-- The state with a table word on the input ports, where the next step takes it. The block fetches nothing: its caller
presents each transaction (spec/20_memory.md R51; log 8, log 18). -/
def State.withFetchWord (s : State) (nbits w : Nat) : State := s.present (tablePins s.cfg.width nbits w)

end Sys2Proof.Machine
end

