-- ==== Sys2Proof/Safety.lean ====
section
/-! DEFINITION. What claims about runs are stated in: the invariant of the machine, safe steps, and the untimed view of
a timed state. -/

namespace Sys2Proof.Machine

/-- The exact sum `S` of a transaction (spec/40_word_multiply_add.md R80, R81). -/
def exactSum : Instr → Nat
  | .madd2 a b _ carryIn => a.toNat * b.toNat + carryIn.toNat
  | .madd3 a b addend carryIn => a.toNat * b.toNat + addend.toNat + carryIn.toNat

/-- The outputs that show a sum `S` in a build of width `W`: `lo = S mod 2^W`, `carry_out = S div 2^W`
(spec/40_word_multiply_add.md R80, R81). -/
def sumResponse (W : Width) (S : Nat) : Response :=
  { lo := BitVec.ofNat 64 (S % 2 ^ W.bits), carryOut := BitVec.ofNat 64 (S / 2 ^ W.bits) }

/-- The canonical form of the caller's cells: names strictly rising (log 15). -/
abbrev CellsRising (cs : Cells) : Prop := cs.Pairwise fun x y => x.1 < y.1

/-- Both outputs are Words of the build (spec/10_state.md R22; spec/40_word_multiply_add.md R84). -/
abbrev Response.Fits (W : Width) (r : Response) : Prop := r.lo.Fits W.bits ∧ r.carryOut.Fits W.bits

/-- What every reachable state satisfies. -/
structure State.Inv (s : State) : Prop where
  /-- The cells are in canonical form. -/
  cellsRising : CellsRising s.cells
  /-- Every cell is W bits wide (spec/10_state.md R30, R34). -/
  cellsFit : ∀ x ∈ s.cells, x.2.Fits s.cfg.width.bits
  /-- Both output ports are W bits wide (spec/10_state.md R22). -/
  rspFits : ∀ r ∈ s.rsp, r.Fits s.cfg.width
  /-- The outputs of an incomplete transaction are W bits wide. -/
  pendingFit : ∀ p ∈ s.inFlight, p.rsp.Fits s.cfg.width
  /-- No transaction writes both outputs to one cell (spec/30_encoding.md R67). -/
  destsApart : ∀ p ∈ s.inFlight, ∀ d ∈ p.dest, d.rd ≠ d.rk
  /-- No two incomplete transactions own one cell (spec/70_reset_and_hazards.md R153, R154; log 13). -/
  ownersApart : s.inFlight.Pairwise fun p q => ∀ c ∈ destCells p.dest, c ∉ destCells q.dest
  /-- A presented request is a vector of the build's pins (spec/30_encoding.md R65). -/
  requestLength : ∀ pins ∈ s.request, pins.length = txnBits s.cfg.width
  /-- A combinational build has no incomplete transaction (spec/20_memory.md R48). -/
  untimedSettled : s.cfg.latency = 0 → s.inFlight = []

/-- A step that neither faults nor is refused. -/
def SafeStep (s : State) : Prop := ∃ t, step s = .next t

/-- The same machine built with LATENCY = 0 (spec/00_scope.md R14). -/
def untimed (s : State) : State := { s with cfg := { s.cfg with latency := 0 } }

/-- Every incomplete transaction completed, oldest first: what the caller's cells will hold once nothing is in flight
(spec/70_reset_and_hazards.md R153, R156). -/
def drain (s : State) : State := s.inFlight.foldl (fun s p => retire p s) { s with inFlight := [] }

/-- `n` steps of waiting. -/
def ticks : Nat → State → State
  | 0, s => s
  | n + 1, s => ticks n (tick s)

/-- Two statements have no data dependency: neither writes a cell the other reads or writes
(spec/70_reset_and_hazards.md R154). -/
def independent (x y : Stmt) : Bool :=
  x.writes.all (fun c => !(y.reads ++ y.writes).contains c) && y.writes.all (fun c => !(x.reads ++ x.writes).contains c)

end Sys2Proof.Machine
end

