-- ==== Sys2Proof/Certificates/Slice0/Obligations.lean ====
section
/-! DEFINITION. The statements about the model, in the order of OBLIGATIONS.json. -/

open Sys2Proof Sys2Proof.Machine

/-! ## The two operations (spec/40_word_multiply_add.md) -/

/-- R80. `MADD2` answers a next state in every build, on every Word operand: `lo = S mod 2^W`, `carry_out = S div 2^W`
for `S = a*b + carry_in`, and every other part of the state as it was. `S` has the stated bound; the request has
`op = 0`. -/
def Obligations.Madd2GivesExactSum : Prop :=
  ∀ (s : State) (a b addend carryIn : Word),
    let n := s.cfg.width.bits
    let S := a.toNat * b.toNat + carryIn.toNat
    a.Fits n → b.Fits n → addend.Fits n → carryIn.Fits n →
      exec (.madd2 a b addend carryIn) s =
        .next { s with rsp := some ⟨BitVec.ofNat 64 (S % 2 ^ n), BitVec.ofNat 64 (S / 2 ^ n)⟩ } ∧
      S ≤ 2 ^ (2 * n) - 2 ^ n ∧
      (encodeTxn s.cfg.width (.madd2 a b addend carryIn)).getLsbD 0 = false

/-- R81. `MADD3` answers a next state in every build, on every Word operand: `lo = S mod 2^W`, `carry_out = S div 2^W`
for `S = a*b + addend + carry_in`, and every other part of the state as it was. `S` has the stated bound; the request
has `op = 1`. -/
def Obligations.Madd3GivesExactSum : Prop :=
  ∀ (s : State) (a b addend carryIn : Word),
    let n := s.cfg.width.bits
    let S := a.toNat * b.toNat + addend.toNat + carryIn.toNat
    a.Fits n → b.Fits n → addend.Fits n → carryIn.Fits n →
      exec (.madd3 a b addend carryIn) s =
        .next { s with rsp := some ⟨BitVec.ofNat 64 (S % 2 ^ n), BitVec.ofNat 64 (S / 2 ^ n)⟩ } ∧
      S ≤ 2 ^ (2 * n) - 1 ∧
      (encodeTxn s.cfg.width (.madd3 a b addend carryIn)).getLsbD 0 = true

/-- R82. After every transaction `carry_out * 2^W + lo` is the exact sum, and so is `(carry_out << W) | lo`, since
`lo < 2^W`. -/
def Obligations.OutputsRecombineToExactSum : Prop :=
  ∀ (s t : State) (i : Instr), exec i s = .next t →
    ∃ r, t.rsp = some r ∧
      r.carryOut.toNat * 2 ^ s.cfg.width.bits + r.lo.toNat = exactSum i ∧
      r.lo.toNat < 2 ^ s.cfg.width.bits ∧
      r.carryOut.toNat <<< s.cfg.width.bits ||| r.lo.toNat = exactSum i

/-- R83. `MADD2` is `MADD3` with a zero addend, in both outputs, whatever stands on the addend port. -/
def Obligations.Madd2IsMadd3WithZeroAddend : Prop :=
  ∀ (s : State) (a b addend carryIn : Word), addend.Fits s.cfg.width.bits →
    exec (.madd2 a b addend carryIn) s = exec (.madd3 a b 0 carryIn) s

/-- R84. With `M = 2^W - 1`, the sum of MADD2 is at most `M^2 + M = 2^(2W) - 2^W`, that of MADD3 at most
`M^2 + 2M = 2^(2W) - 1`; the high word is at most `M`, and the two outputs lose nothing of the sum. -/
def Obligations.SumNeverOverflows : Prop :=
  ∀ (s : State) (a b addend carryIn : Word),
    let n := s.cfg.width.bits
    let M := 2 ^ n - 1
    a.Fits n → b.Fits n → addend.Fits n → carryIn.Fits n →
      (∃ r, exec (.madd2 a b addend carryIn) s = .next (s.driveOutputs r) ∧
        r.carryOut.toNat * 2 ^ n + r.lo.toNat = a.toNat * b.toNat + carryIn.toNat ∧
        a.toNat * b.toNat + carryIn.toNat ≤ M ^ 2 + M ∧ r.carryOut.toNat ≤ M) ∧
      (∃ r, exec (.madd3 a b addend carryIn) s = .next (s.driveOutputs r) ∧
        r.carryOut.toNat * 2 ^ n + r.lo.toNat = a.toNat * b.toNat + addend.toNat + carryIn.toNat ∧
        a.toNat * b.toNat + addend.toNat + carryIn.toNat ≤ M ^ 2 + 2 * M ∧ r.carryOut.toNat ≤ M) ∧
      M ^ 2 + M = 2 ^ (2 * n) - 2 ^ n ∧ M ^ 2 + 2 * M = 2 ^ (2 * n) - 1 ∧ M ^ 2 + 2 * M < 2 ^ (2 * n)

/-- R85. MADD2 with a = b = carry_in = MAX gives lo = 0 and carry_out = MAX, and no other MADD2 input gives carry_out =
MAX; MADD3 with all four inputs MAX gives lo = MAX and carry_out = MAX. -/
def Obligations.MaximalInputs : Prop :=
  ∀ s : State,
    let n := s.cfg.width.bits
    let MAX := Word.max n
    (∀ addend : Word, addend.Fits n → exec (.madd2 MAX MAX addend MAX) s = .next (s.driveOutputs ⟨0, MAX⟩)) ∧
    exec (.madd3 MAX MAX MAX MAX) s = .next (s.driveOutputs ⟨MAX, MAX⟩) ∧
    ∀ (a b addend carryIn lo : Word),
      exec (.madd2 a b addend carryIn) s = .next (s.driveOutputs ⟨lo, MAX⟩) → a = MAX ∧ b = MAX ∧ carryIn = MAX

/-- R86. With a = 0 or b = 0, MADD2 gives lo = carry_in and carry_out = 0; MADD3 gives the sum of its two terms, lo
wrapped and carry_out 1 exactly when the sum reaches 2^W; all zero inputs give (0, 0). -/
def Obligations.ZeroProductIsCarryChainAdd : Prop :=
  ∀ (s : State) (a b addend carryIn : Word),
    let n := s.cfg.width.bits
    a.Fits n → b.Fits n → addend.Fits n → carryIn.Fits n → (a = 0 ∨ b = 0) →
      exec (.madd2 a b addend carryIn) s = .next (s.driveOutputs ⟨carryIn, 0⟩) ∧
      exec (.madd3 a b addend carryIn) s =
        .next (s.driveOutputs
          ⟨BitVec.ofNat 64 ((addend.toNat + carryIn.toNat) % 2 ^ n),
            if 2 ^ n ≤ addend.toNat + carryIn.toNat then 1 else 0⟩) ∧
      exec (.madd3 0 0 0 0) s = .next (s.driveOutputs ⟨0, 0⟩)

/-- R87. Exchanging `a` and `b` changes neither output of either operation; exchanging `addend` and `carry_in` changes
neither output of MADD3; the order of the two fallback adds cannot change either output. -/
def Obligations.OperandsMayBeExchanged : Prop :=
  (∀ (s : State) (a b addend carryIn : Word),
    exec (.madd2 a b addend carryIn) s = exec (.madd2 b a addend carryIn) s ∧
    exec (.madd3 a b addend carryIn) s = exec (.madd3 b a addend carryIn) s ∧
    exec (.madd3 a b addend carryIn) s = exec (.madd3 a b carryIn addend) s) ∧
  ∀ (w : Nat) (impl : SplitMulImpl) (a b addend carryIn : BitVec w),
    addStage carryIn (addStage addend (splitMul impl a b)) = addStage addend (addStage carryIn (splitMul impl a b))

/-- R88. MADD2 with a zero carry gives some (lo1, k1); a second MADD2(0, 0, k1) gives lo2 = k1 and carry_out2 = 0. -/
def Obligations.ZeroCarryChainPassesCarryThrough : Prop :=
  ∀ (s : State) (a b addend addend' : Word),
    let n := s.cfg.width.bits
    a.Fits n → b.Fits n → addend.Fits n → addend'.Fits n →
      ∃ lo1 k1, exec (.madd2 a b addend 0) s = .next (s.driveOutputs ⟨lo1, k1⟩) ∧
        exec (.madd2 0 0 addend' k1) (s.driveOutputs ⟨lo1, k1⟩) =
          .next ((s.driveOutputs ⟨lo1, k1⟩).driveOutputs ⟨k1, 0⟩)

/-- R24. No output of MADD2 depends on the addend port, and the harness drives that port to 0. -/
def Obligations.Madd2IgnoresAddend : Prop :=
  (∀ (s : State) (a b x y carryIn : Word), x.Fits s.cfg.width.bits → y.Fits s.cfg.width.bits →
    exec (.madd2 a b x carryIn) s = exec (.madd2 a b y carryIn) s) ∧
  ∀ (s : State) (rd rk : CellName) (ra rb : Operand) (a b carryIn : Word), rd ≠ rk →
    readOperand s ra = some a → readOperand s rb = some b → s.readCell rk = some carryIn →
    runMadd2 rd ra rb rk s = issue rd rk (.madd2 a b 0 carryIn) s

/-! ## The block as a whole (spec/10_state.md, spec/20_memory.md) -/

/-- The frame of both operations, spec/20_memory.md R44. A transaction that completes drives both output ports, each with
W bits (2W in all), and changes nothing else: not the build, the input ports, any cell, the program, the statement
index, the scoreboard. Its request has 1 + 4W pins. It is idempotent: executed again on the state it left, it leaves
that state. -/
def Obligations.TransactionChangesOnlyItsOutputs : Prop :=
  ∀ (i : Instr) (s t : State), exec i s = .next t →
    t.cfg = s.cfg ∧ t.request = s.request ∧ (∀ x, t.readCell x = s.readCell x) ∧ t.cells = s.cells ∧
    t.program = s.program ∧ t.pc = s.pc ∧ t.inFlight = s.inFlight ∧ t.waitsDrawn = s.waitsDrawn ∧
    (∃ r, t.rsp = some r ∧ r.Fits s.cfg.width) ∧
    (encode s.cfg.width i).length = 1 + 4 * s.cfg.width.bits ∧
    exec i t = .next t

/-- spec/10_state.md R20, spec/40_word_multiply_add.md R90. The outputs are a function of the transaction's inputs and
the build: two machines of one word width, whatever else they hold and however else they are built, give one
transaction the same outputs. -/
def Obligations.OutputsDependOnInputsAlone : Prop :=
  ∀ (s s' : State) (i : Instr), s.cfg.width = s'.cfg.width → i.wf s.cfg.width = true →
    ∃ r, exec i s = .next (s.driveOutputs r) ∧ exec i s' = .next (s'.driveOutputs r)

/-- A term with an operand beyond MAX is no transaction of the build and is refused by name, and nothing else is refused
(the model's choice, log 4). -/
def Obligations.TooWideOperandIsRefused : Prop :=
  ∀ (i : Instr) (s : State), exec i s = .refused .operandTooWide ↔ i.wf s.cfg.width = false

/-! ## The encoding (spec/30_encoding.md) -/

/-- Decoding the pins of any well-formed instruction gives it back, in every build. -/
def Obligations.DecodeOfEncode : Prop :=
  ∀ (W : Width) (i : Instr), i.wf W = true → decode W (encode W i) = .ok i

/-- Every request the decoder accepts is the encoding of the well-formed instruction it gives: each request has one
meaning. -/
def Obligations.EncodeOfDecode : Prop :=
  ∀ (W : Width) (pins : List Pin) (i : Instr), decode W pins = .ok i → i.wf W = true ∧ encode W i = pins

/-- R62. `TXN & 0x1 = 0x0` is MADD2, `TXN & 0x1 = 0x1` is MADD3, and no other bit takes part. -/
def Obligations.OpBitSelectsOperation : Prop :=
  ∀ (W : Width) (v : BitVec (txnBits W)),
    (v &&& 1 = 0 → ∃ a b addend carryIn, decodeTxn W v = .madd2 a b addend carryIn) ∧
    (v &&& 1 = 1 → ∃ a b addend carryIn, decodeTxn W v = .madd3 a b addend carryIn) ∧
    (v &&& 1 = 0 ∨ v &&& 1 = 1)

/-- R60. The request is `4W + 1` bits; its value is the formula of R60 over the plain values of the operands; and each
operand field of a request is the slice R60 gives it. -/
def Obligations.RequestLayout : Prop :=
  ∀ (W : Width) (a b addend carryIn : Word),
    let n := W.bits
    a.Fits n → b.Fits n → addend.Fits n → carryIn.Fits n →
      txnBits W = 4 * n + 1 ∧
      (encodeTxn W (.madd2 a b addend carryIn)).toNat =
        0 + a.toNat * 2 + b.toNat * 2 ^ (n + 1) + addend.toNat * 2 ^ (2 * n + 1) + carryIn.toNat * 2 ^ (3 * n + 1) ∧
      (encodeTxn W (.madd3 a b addend carryIn)).toNat =
        1 + a.toNat * 2 + b.toNat * 2 ^ (n + 1) + addend.toNat * 2 ^ (2 * n + 1) + carryIn.toNat * 2 ^ (3 * n + 1) ∧
      ∀ v : BitVec (txnBits W),
        (decodeTxn W v = .madd2 a b addend carryIn ∨ decodeTxn W v = .madd3 a b addend carryIn) ↔
          a.toNat = (v.extractLsb' 1 n).toNat ∧ b.toNat = (v.extractLsb' (n + 1) n).toNat ∧
          addend.toNat = (v.extractLsb' (2 * n + 1) n).toNat ∧ carryIn.toNat = (v.extractLsb' (3 * n + 1) n).toNat

/-- Every request with definite bits decodes to exactly one operation of the build; a request with a bit that is not
definite is rejected, and presenting it faults; every value of MADD2's addend bits gives MADD2 with the same outputs
(30_encoding.md R64). That the fault is given in this very step, however many transactions are in flight, is the model's
choice (log 24), and so is that `UndrivenInput` is its reason whatever harness statement is next (log 21). -/
def Obligations.EveryDefiniteRequestIsOneOperation : Prop :=
  (∀ (W : Width) (pins : List Pin), pins.length = txnBits W → Pin.undriven ∉ pins →
    ∃ i, decode W pins = .ok i ∧ i.wf W = true) ∧
  (∀ (s : State) (pins : List Pin), s.request = some pins → pins.length = txnBits s.cfg.width → Pin.undriven ∈ pins →
    decode s.cfg.width pins = .error .undrivenInput ∧ step s = .fault .undrivenInput) ∧
  ∀ (c : Config) (a b x y carryIn : Word), (Instr.madd2 a b x carryIn).wf c.width = true →
    (Instr.madd2 a b y carryIn).wf c.width = true →
    decode c.width (encode c.width (.madd2 a b x carryIn)) = .ok (.madd2 a b x carryIn) ∧
    decode c.width (encode c.width (.madd2 a b y carryIn)) = .ok (.madd2 a b y carryIn) ∧
    respond c (.madd2 a b x carryIn) = respond c (.madd2 a b y carryIn)

/-- R61. `RSP = {carry_out, lo}`: lo at bits [W-1:0], carry_out at bits [2W-1:W], and read as a 2W-bit number it is the
exact sum S of the operation. -/
def Obligations.ResponseVectorIsExactSum : Prop :=
  ∀ (s : State) (i : Instr), i.wf s.cfg.width = true →
    ∃ r, exec i s = .next (s.driveOutputs r) ∧
      ((encodeResponse s.cfg.width r.lo r.carryOut).extractLsb' 0 s.cfg.width.bits).toNat = r.lo.toNat ∧
      ((encodeResponse s.cfg.width r.lo r.carryOut).extractLsb' s.cfg.width.bits s.cfg.width.bits).toNat =
        r.carryOut.toNat ∧
      (encodeResponse s.cfg.width r.lo r.carryOut).toNat = exactSum i

/-- R69, and the vectors X5, X8, X9 of spec/95_test_vectors.md: request words written out by the spec, W = 8. -/
def Obligations.WrittenOutRequestsDecode : Prop :=
  decode .w8 (pinsOf 33 0x00001FFFE) = .ok (.madd2 0xFF 0xFF 0 0) ∧
  encodeTxn .w8 (.madd2 0xFF 0xFF 0 0) = 0x00001FFFE ∧
  encodeResponse .w8 0x01 0xFE = 0xFE01 ∧
  respond Config.reference (.madd2 0xFF 0xFF 0 0) = ⟨0x01, 0xFE⟩ ∧
  decode .w8 (pinsOf 33 0x0020005FE) = .ok (.madd2 0xFF 0x02 0 0x01) ∧
  decode .w8 (pinsOf 33 0x1FFFE0501) = .ok (.madd3 0x80 0x02 0xFF 0xFF) ∧
  decode .w8 (pinsOf 33 0x0AD566824) = .ok (.madd2 0x12 0x34 0xAB 0x56)

/-! ## The datapath (spec/41_datapath.md) -/

/-- R107. A W-bit add wraps, and the detected overflow is 1 exactly when `x + t >= 2^W`. -/
def Obligations.OverflowDetectionIsExact : Prop :=
  ∀ (w : Nat) (x t : BitVec w),
    (x + t).toNat = (x.toNat + t.toNat) % 2 ^ w ∧
    (addOverflow (x + t) t = true ↔ 2 ^ w ≤ x.toNat + t.toNat) ∧
    ((overflowWord (x + t) t).toNat = if 2 ^ w ≤ x.toNat + t.toNat then 1 % 2 ^ w else 0)

/-- R103. In every build, whichever way the product is formed, the two halves are the exact product, `ph <= 2^W - 2`, and
the choice of implementation is unobservable. -/
def Obligations.SplitMultiplyIsExact : Prop :=
  ∀ (W : Width) (impl : SplitMulImpl) (a b : BitVec W.bits),
    let p := splitMul impl a b
    p.2.toNat * 2 ^ W.bits + p.1.toNat = a.toNat * b.toNat ∧
    p.1.toNat = a.toNat * b.toNat % 2 ^ W.bits ∧ p.2.toNat = a.toNat * b.toNat / 2 ^ W.bits ∧
    p.2.toNat ≤ 2 ^ W.bits - 2 ∧
    splitMul .hwMul a b = splitMul .limbDecomp a b

/-- R112, at every even width `2h`. The partial products of R111 make up the product; the middle sum is what its wrapped
register and its carry hold; `ph` and `pl` are the exact product; and no add into `x2Mid`, `x0` or `ph` overflows. -/
def Obligations.LimbDecompositionIsExact : Prop :=
  ∀ (h : Nat) (a b : BitVec (2 * h)),
    let L := limbSteps a b
    a.toNat * b.toNat = L.x0.toNat * 2 ^ (2 * h) + (L.x1.toNat + L.x2.toNat) * 2 ^ h + L.x3.toNat ∧
    L.x1.toNat + L.x2.toNat + L.x3.toNat / 2 ^ h = L.x2Final.toNat + L.cy.toNat * 2 ^ (2 * h) ∧
    L.ph.toNat = L.x0.toNat + L.cy.toNat * 2 ^ h + L.x2Final.toNat / 2 ^ h ∧
    L.pl.toNat = L.x2Final.toNat % 2 ^ h * 2 ^ h + L.x3.toNat % 2 ^ h ∧
    L.ph.toNat * 2 ^ (2 * h) + L.pl.toNat = a.toNat * b.toNat ∧
    L.x2.toNat + L.x3.toNat / 2 ^ h < 2 ^ (2 * h) ∧
    L.x0.toNat + L.cy.toNat * 2 ^ h < 2 ^ (2 * h) ∧
    L.x0Final.toNat + L.x2Final.toNat / 2 ^ h < 2 ^ (2 * h)

/-- R109. In the fallback chain, after each stage `hi*2^W + lo` is the exact partial sum, and each increment of `hi` is an
add with no carry out: for the product, for one term (MADD2 and the first stage of MADD3), and for both terms. -/
def Obligations.FallbackPartialSumsAreExact : Prop :=
  ∀ (W : Width) (impl : SplitMulImpl) (a b addend carryIn : BitVec W.bits),
    let p0 := splitMul impl a b
    let p1 := addStage addend p0
    let p2 := addStage carryIn p1
    p0.2.toNat * 2 ^ W.bits + p0.1.toNat = a.toNat * b.toNat ∧
    p1.2.toNat * 2 ^ W.bits + p1.1.toNat = a.toNat * b.toNat + addend.toNat ∧
    p2.2.toNat * 2 ^ W.bits + p2.1.toNat = a.toNat * b.toNat + addend.toNat + carryIn.toNat ∧
    p0.2.toNat + (overflowWord p1.1 addend).toNat = p1.2.toNat ∧
    p1.2.toNat + (overflowWord p2.1 carryIn).toNat = p2.2.toNat

/-- R110. At every width, the product and the two fast sums fit in 2W bits, so no 2W-bit add drops a carry. -/
def Obligations.FastTreeNeverOverflows : Prop :=
  ∀ (w : Nat) (a b addend carryIn : BitVec w),
    let P := wideProduct a b
    P.toNat = a.toNat * b.toNat ∧
    P.toNat + carryIn.toNat ≤ 2 ^ (2 * w) - 2 ^ w ∧
    (fastTree1 P carryIn).toNat = P.toNat + carryIn.toNat ∧
    P.toNat + addend.toNat + carryIn.toNat ≤ 2 ^ (2 * w) - 1 ∧
    (fastTree2 P addend carryIn).toNat = P.toNat + addend.toNat + carryIn.toNat

/-- R113. Both strategies, every SPLIT_MUL_IMPL and every HAS_NATIVE_128 give bit-for-bit identical (lo, carry_out) for
every input, equal to the exact values of R80 and R81: on the W-bit datapaths, and on the block of any two builds of one
width. -/
def Obligations.StrategiesAgree : Prop :=
  (∀ (W : Width) (impl : SplitMulImpl) (a b addend carryIn : BitVec W.bits),
    fastMadd2 a b carryIn = fallbackMadd2 impl a b carryIn ∧
    fastMadd3 a b addend carryIn = fallbackMadd3 impl a b addend carryIn) ∧
  ∀ (c c' : Config) (i : Instr), c.width = c'.width → i.wf c.width = true →
    respond c i = respond c' i ∧ respond c i = sumResponse c.width (exactSum i)

/-- R101. The selection rule, as 41_datapath.md §1 writes it. -/
def Obligations.StrategySelection : Prop :=
  ∀ c : Config,
    (c.hasNativeDW = true ↔
      c.width = .w8 ∨ c.width = .w16 ∨ c.width = .w32 ∨ (c.width = .w64 ∧ c.hasNative128 = true)) ∧
    (c.hasNativeDW = true ∧ c.forceFallback = false → c.strategy = .fast) ∧
    (¬ (c.hasNativeDW = true ∧ c.forceFallback = false) → c.strategy = .fallback)

/-! ## The build (spec/60_exceptions.md, spec/10_state.md) -/

/-- R131, R132. A build with W not in {8, 16, 32, 64} is rejected; every other combination of parameters is accepted and
gives the block asked for. -/
def Obligations.UnsupportedWidthIsRejected : Prop :=
  ∀ (W : Nat) (native force : Bool) (impl : SplitMulImpl) (latency : Nat),
    (W ∉ [8, 16, 32, 64] → buildConfig W native force impl latency = .error .unsupportedWidth) ∧
    (W ∈ [8, 16, 32, 64] → ∃ c, buildConfig W native force impl latency = .ok c ∧ c.width.bits = W ∧
      c.hasNative128 = native ∧ c.forceFallback = force ∧ c.splitMulImpl = impl ∧ c.latency = latency)

/-- No step writes the build, so the strategy is never a matter of one transaction (10_state.md §3, 41_datapath.md §1). -/
def Obligations.NoStepWritesTheBuild : Prop :=
  ∀ s t : State, step s = .next t → t.cfg = s.cfg ∧ t.cfg.strategy = s.cfg.strategy

/-- The harness has no control transfer: the program stays, and the statement index stays or goes on by one
(10_state.md §3, 40_word_multiply_add.md §2). -/
def Obligations.StatementIndexOnlyMovesForward : Prop :=
  ∀ s t : State, step s = .next t → t.program = s.program ∧ (t.pc = s.pc ∨ t.pc = s.pc + 1)

/-! ## Reset and the invariant -/

/-- At reset of every build nothing is presented, no output exists, every cell is unwritten and nothing is in flight. -/
def Obligations.ResetHoldsNothing : Prop :=
  ∀ c : Config, let s := State.resetOf c
    s.cfg = c ∧ s.request = none ∧ s.rsp = none ∧ (∀ x, s.readCell x = none) ∧ s.inFlight = [] ∧
    State.reset = State.resetOf Config.reference

/-- The invariant holds at reset of every build. -/
def Obligations.ResetSatisfiesInv : Prop := ∀ c : Config, (State.resetOf c).Inv

/-- Every step keeps the invariant: every Word of the state fits in W bits, the cells keep their canonical form, no cell
is owned twice, a request has the length of the build's ports. -/
def Obligations.StepKeepsInv : Prop := ∀ s t : State, s.Inv → step s = .next t → t.Inv

/-! ## Transactions from the pins (spec/10_state.md R21, spec/20_memory.md R43) -/

/-- A step takes the presented request: it is `exec` of the decoded instruction, after the scoreboard's part of the step
and the sampling of the inputs, and followed by the settling of the answer. How a step is put together is the model's
choice: the scoreboard's part first (log 14), a presented request before the harness's next statement (log 21), the
answer of a timed build held back by `settle` (log 10), the request no longer presented once it is sampled (log 23), and
any number of transactions in flight beside it (log 24). -/
def Obligations.StepRunsDecodedRequest : Prop :=
  ∀ (s : State) (pins : List Pin) (i : Instr), s.request = some pins → decode s.cfg.width pins = .ok i →
    step s =
      match exec i (tick s).sampled with
      | .next t => .next (settle (tick s) none t)
      | .fault f => .fault f
      | .refused r => .refused r

/-- A presented request with definite bits always completes its step, in every build (60_exceptions.md R130: no run-time
exception exists). With nothing in flight in a combinational build the new state is exact: the exact outputs on the
ports, the request taken, all else unchanged. That it is then no longer presented (`request := none`) is the model's
choice (log 23), and so is that it comes before the next harness statement, which may be one that faults (log 21). -/
def Obligations.DefiniteRequestCompletes : Prop :=
  ∀ (s : State) (pins : List Pin), s.request = some pins → pins.length = txnBits s.cfg.width → Pin.undriven ∉ pins →
    ∃ i, decode s.cfg.width pins = .ok i ∧ SafeStep s ∧
      (s.cfg.latency = 0 → s.inFlight = [] →
        step s = .next { s with request := none, rsp := some (sumResponse s.cfg.width (exactSum i)) })

/-- In a timed build a request's outputs are not visible yet: the ports and cells are as the scoreboard left them, and
the transaction is in flight with the exact outputs it will give (70_reset_and_hazards.md R151, R153). That the ports
keep the answer they showed is the model's choice (log 7), and so are that the request is no longer presented
(`t.request = none`, log 23), that it joins any number of transactions in flight (log 24), and that it comes after the
scoreboard's part of the step (log 14) and before the next harness statement (`t.pc = s.pc`, log 21). How long the
transaction waits is a free value (log 11), and nothing here rests on it. -/
def Obligations.TimedRequestIsInFlight : Prop :=
  ∀ (s : State) (pins : List Pin) (i : Instr), s.request = some pins → decode s.cfg.width pins = .ok i →
    s.cfg.latency ≠ 0 →
    ∃ t wait, step s = .next t ∧ t.rsp = (tick s).rsp ∧ t.cells = (tick s).cells ∧ t.request = none ∧
      t.inFlight = (tick s).inFlight ++ [⟨none, sumResponse s.cfg.width (exactSum i), wait⟩] ∧
      t.cfg = s.cfg ∧ t.program = s.program ∧ t.pc = s.pc

/-- A presented request with an input bit that is not definite faults, whichever bit it is, and no other presented request
faults so (60_exceptions.md R133, vector F1). That the fault is given in this very step, however many transactions are in
flight, is the model's choice (log 24), and so is that `UndrivenInput` is its reason even where the next harness statement
would fault (log 21: a presented request comes first; R133 and R135 order the reasons of one statement). -/
def Obligations.UndrivenInputFaults : Prop :=
  ∀ (s : State) (pins : List Pin), s.request = some pins → pins.length = txnBits s.cfg.width →
    (step s = .fault .undrivenInput ↔ Pin.undriven ∈ pins)

/-! ## The caller harness (spec/30_encoding.md R67, R68) -/

/-- `LI rd, #value` writes the value to its cell and to no other. That the ports keep the answer they showed
(`t.rsp = s.rsp`) is the model's choice (log 7). -/
def Obligations.LiWritesItsCell : Prop :=
  ∀ (s : State) (rd : CellName) (v : Word), s.request = none → s.inFlight = [] →
    s.program[s.pc]? = some (.li rd v) → v.Fits s.cfg.width.bits →
    ∃ t, step s = .next t ∧ t.pc = s.pc + 1 ∧ (∀ x, t.readCell x = if x = rd then some v else s.readCell x) ∧
      t.cfg = s.cfg ∧ t.request = none ∧ t.rsp = s.rsp ∧ t.program = s.program ∧ t.inFlight = []

/-- `MOV rd, rs` copies a written cell, and faults if the cell is unwritten. That the ports keep the answer they showed
(`t.rsp = s.rsp`) is the model's choice (log 7). -/
def Obligations.MovCopiesACell : Prop :=
  ∀ (s : State) (rd rs : CellName), s.request = none → s.inFlight = [] → s.program[s.pc]? = some (.mov rd rs) →
    (∀ v, s.readCell rs = some v →
      ∃ t, step s = .next t ∧ t.pc = s.pc + 1 ∧ (∀ x, t.readCell x = if x = rd then some v else s.readCell x) ∧
        t.cfg = s.cfg ∧ t.request = none ∧ t.rsp = s.rsp ∧ t.program = s.program ∧ t.inFlight = []) ∧
    (s.readCell rs = none → step s = .fault .unwrittenCell)

/-- `MADD2 rd, ra, rb, rk` in a combinational build: with the old values of its operands (whatever cells they share with
rd and rk), `rd <- lo`, `rk <- carry_out`, every other cell as it was. That the request it presented is presented no
longer (`t.request = none`) is the model's choice (log 23). -/
def Obligations.HarnessMadd2WritesBack : Prop :=
  ∀ (s : State) (rd rk : CellName) (ra rb : Operand) (a b carryIn : Word),
    let n := s.cfg.width.bits
    let S := a.toNat * b.toNat + carryIn.toNat
    s.cfg.latency = 0 → s.inFlight = [] → s.request = none → s.program[s.pc]? = some (.madd2 rd ra rb rk) → rd ≠ rk →
    readOperand s ra = some a → readOperand s rb = some b → s.readCell rk = some carryIn →
    a.Fits n → b.Fits n → carryIn.Fits n →
    ∃ t, step s = .next t ∧ t.pc = s.pc + 1 ∧ t.rsp = some (sumResponse s.cfg.width S) ∧
      t.readCell rd = some (sumResponse s.cfg.width S).lo ∧ t.readCell rk = some (sumResponse s.cfg.width S).carryOut ∧
      (∀ x, x ≠ rd → x ≠ rk → t.readCell x = s.readCell x) ∧
      t.cfg = s.cfg ∧ t.request = none ∧ t.program = s.program ∧ t.inFlight = []

/-- `MADD3 rd, ra, rb, rc, rk` in a combinational build: with the old values of its operands (whatever cells they share
with rd and rk), `rd <- lo`, `rk <- carry_out`, every other cell as it was. That the request it presented is presented
no longer (`t.request = none`) is the model's choice (log 23). -/
def Obligations.HarnessMadd3WritesBack : Prop :=
  ∀ (s : State) (rd rk : CellName) (ra rb rc : Operand) (a b addend carryIn : Word),
    let n := s.cfg.width.bits
    let S := a.toNat * b.toNat + addend.toNat + carryIn.toNat
    s.cfg.latency = 0 → s.inFlight = [] → s.request = none → s.program[s.pc]? = some (.madd3 rd ra rb rc rk) →
    rd ≠ rk → readOperand s ra = some a → readOperand s rb = some b → readOperand s rc = some addend →
    s.readCell rk = some carryIn → a.Fits n → b.Fits n → addend.Fits n → carryIn.Fits n →
    ∃ t, step s = .next t ∧ t.pc = s.pc + 1 ∧ t.rsp = some (sumResponse s.cfg.width S) ∧
      t.readCell rd = some (sumResponse s.cfg.width S).lo ∧ t.readCell rk = some (sumResponse s.cfg.width S).carryOut ∧
      (∀ x, x ≠ rd → x ≠ rk → t.readCell x = s.readCell x) ∧
      t.cfg = s.cfg ∧ t.request = none ∧ t.program = s.program ∧ t.inFlight = []

/-- In every build, timed or not, a harness MADD statement that is not held, with readable operands and two destinations,
is the issue of its transaction: MADD2 with addend 0, MADD3 with its addend, on the values the cells have after the
scoreboard's part of the step (log 14). That it is issued however many transactions are in flight is the model's choice
(log 24). -/
def Obligations.HarnessIssuesItsTransaction : Prop :=
  ∀ (s : State) (rd rk : CellName) (ra rb rc : Operand) (a b addend carryIn : Word), s.request = none → rd ≠ rk →
    readOperand (tick s) ra = some a → readOperand (tick s) rb = some b → (tick s).readCell rk = some carryIn →
    (s.program[s.pc]? = some (.madd2 rd ra rb rk) → (Stmt.madd2 rd ra rb rk).fits s.cfg.width = true →
      held (tick s) (.madd2 rd ra rb rk) = false → step s = issue rd rk (.madd2 a b 0 carryIn) (tick s)) ∧
    (s.program[s.pc]? = some (.madd3 rd ra rb rc rk) → (Stmt.madd3 rd ra rb rc rk).fits s.cfg.width = true →
      readOperand (tick s) rc = some addend → held (tick s) (.madd3 rd ra rb rc rk) = false →
      step s = issue rd rk (.madd3 a b addend carryIn) (tick s))

/-- A statement that reads a cell nothing has written faults `UnwrittenCell`; it is not read as zero. (Where `rd = rk` as
well, the model reports the other reason: log 9. That a hold comes before the fault is the model's choice: log 22; that
nothing else does, however many transactions are in flight: log 24; that the scoreboard's part comes first: log 14.) -/
def Obligations.UnwrittenCellFaults : Prop :=
  ∀ (s : State) (st : Stmt) (c : CellName), s.request = none → s.program[s.pc]? = some st →
    held (tick s) st = false → st.fits s.cfg.width = true → st.writes.Nodup → c ∈ st.reads →
    (tick s).readCell c = none → step s = .fault .unwrittenCell

/-- A harness MADD2 or MADD3 that names one cell as rd and rk faults `DestEqualsCarry` (before its operands are looked
at: log 9). It faults once it does not hold: that a hold comes first is the model's choice (log 22), and so is that
nothing else does, however many transactions are in flight (log 24), and that the scoreboard's part comes first (log 14). -/
def Obligations.DestEqualsCarryFaults : Prop :=
  ∀ (s : State) (r : CellName) (ra rb rc : Operand) (st : Stmt), st = .madd2 r ra rb r ∨ st = .madd3 r ra rb rc r →
    s.request = none → s.program[s.pc]? = some st → held (tick s) st = false → st.fits s.cfg.width = true →
    step s = .fault .destEqualsCarry

/-- What stops a step, and nothing else does: with the invariant, a presented request is safe exactly when every pin is
definite, and a harness statement exactly when it is held, or its immediates are Words, it does not write both outputs to
one cell, and every cell it reads is written. That a held statement is safe whatever else is wrong with it is the
model's choice (log 22), and so are the refusal of a wider immediate (log 4), that no number of transactions in flight
makes a step wait (log 24), that a presented request comes before the next harness statement (log 21), and that the
scoreboard's part of the step comes before both (log 14). -/
def Obligations.NothingElseStopsAStep : Prop :=
  ∀ s : State, s.Inv →
    (∀ pins, s.request = some pins → (SafeStep s ↔ Pin.undriven ∉ pins)) ∧
    (s.request = none → s.program[s.pc]? = none → SafeStep s) ∧
    ∀ st, s.request = none → s.program[s.pc]? = some st →
      (SafeStep s ↔ held (tick s) st = true ∨
        (st.fits s.cfg.width = true ∧ st.writes.Nodup ∧ ∀ c ∈ st.reads, (tick s).readCell c ≠ none))

/-- With no request presented, no statement left and nothing in flight, a step changes nothing (the model's choice,
log 6), the answer the ports showed included (log 7). -/
def Obligations.NothingToDoChangesNothing : Prop :=
  ∀ s : State, s.request = none → s.program[s.pc]? = none → s.inFlight = [] → step s = .next s

/-! ## The scoreboard (spec/70_reset_and_hazards.md) -/

/-- A statement that names a cell an incomplete transaction still owns holds: the step is the scoreboard's part alone,
and the statement index does not move. It holds for a cell it writes too (DEDUCED, log 13), and before any fault or
refusal it would give (the model's choice, log 22). That the scoreboard's part of the step comes first is the model's
choice (log 14). -/
def Obligations.OwnedCellHoldsTheStatement : Prop :=
  ∀ (s : State) (st : Stmt) (c : CellName), s.request = none → s.program[s.pc]? = some st →
    c ∈ st.reads ++ st.writes → ownedIn (tick s).inFlight c = true →
    step s = .next (tick s) ∧ (tick s).pc = s.pc ∧ (tick s).program = s.program

/-- A transaction the harness issues in a timed build owns the cells it names until it completes: they are not written yet,
the scoreboard holds the exact outputs they will get, and the harness goes on (R153). That the ports keep the answer they
showed (`t.rsp = s.rsp`) is the model's choice (log 7), and so are that its request is no longer presented
(`t.request = none`, log 23) and that it joins any number of transactions in flight (log 24). How long it waits is a free
value (log 11), and nothing here rests on it. -/
def Obligations.TimedIssueOwnsItsCells : Prop :=
  ∀ (s : State) (rd rk : CellName) (i : Instr), s.cfg.latency ≠ 0 → i.wf s.cfg.width = true →
    ∃ t wait, issue rd rk i s = .next t ∧ t.cells = s.cells ∧ t.rsp = s.rsp ∧ t.pc = s.pc + 1 ∧ t.request = none ∧
      t.inFlight = s.inFlight ++ [⟨some ⟨rd, rk⟩, sumResponse s.cfg.width (exactSum i), wait⟩] ∧
      ownedIn t.inFlight rd = true ∧ ownedIn t.inFlight rk = true ∧ t.cfg = s.cfg ∧ t.program = s.program

/-- Every incomplete transaction completes after a finite time, whatever the waits are: after some least number of steps
of waiting nothing is in flight and every cell reads as with all transactions completed; on the way each transaction's
outputs have stood on the ports and in its cells; and the ports then show the answer of the last one to complete, the
only one in flight a step before. That waiting is counted in steps, and that a wait is a number of them, is the model's
choice (log 11, log 14), and so is that at most one completes in a step (log 12). -/
def Obligations.EveryTransactionCompletes : Prop :=
  ∀ s : State, s.Inv →
    ∃ n, (ticks n s).inFlight = [] ∧ (∀ m, m < n → (ticks m s).inFlight ≠ []) ∧
      (∀ x, (ticks n s).readCell x = (drain s).readCell x) ∧
      (∀ p ∈ s.inFlight, ∃ m, 0 < m ∧ m ≤ n ∧ (ticks m s).rsp = some p.rsp ∧
        ∀ d ∈ p.dest, (ticks m s).readCell d.rd = some p.rsp.lo ∧ (ticks m s).readCell d.rk = some p.rsp.carryOut) ∧
      (s.inFlight ≠ [] → ∃ p ∈ s.inFlight, ∃ k wait, n = k + 1 ∧ (ticks k s).inFlight = [{ p with wait := wait }] ∧
        (ticks n s).rsp = some p.rsp)

/-- A timed build computes what the combinational build computes. Compare a timed state with the combinational machine
in which all it has in flight has completed: each step of the timed machine either leaves that machine's cells as they
were (a hold or a wait) or is that machine's step, with the same cells after it and the same outputs: those the timed
machine shows at once in a combinational build, those of the transaction it has just put in flight in a timed one, or,
for a statement that issues no transaction, none; and it faults or is refused only where that machine does. So no hold
reads a stale value, and no cell and no output depends on LATENCY or on a free wait (log 11). When the outputs stand on
the ports is CompletionDrivesOutputs. That the scoreboard's part of a step comes first is the model's choice (log 14). -/
def Obligations.TimedBuildRefinesUntimed : Prop :=
  ∀ s : State, s.Inv →
    (∀ t, step s = .next t →
      (t.pc = s.pc ∧ t.request = s.request ∧ ∀ x, (drain t).readCell x = (drain s).readCell x) ∨
      ∃ u, step (untimed (drain s)) = .next u ∧ u.pc = t.pc ∧ u.request = t.request ∧
        (∀ x, u.readCell x = (drain t).readCell x) ∧
        ((s.cfg.latency = 0 ∧ u.rsp = t.rsp) ∨
          (∃ p, t.inFlight = (tick s).inFlight ++ [p] ∧ u.rsp = some p.rsp) ∨
          (s.request = none ∧ t.inFlight = (tick s).inFlight ∧ t.rsp = (tick s).rsp ∧ u.rsp = (drain s).rsp))) ∧
    (∀ f, step s = .fault f → step (untimed (drain s)) = .fault f) ∧
    ∀ r, step s = .refused r → step (untimed (drain s)) = .refused r

/-- Statements with no data dependency between them may be issued in any order with the same cells after both (R154; here
in the combinational build). -/
def Obligations.IndependentStatementsCommute : Prop :=
  ∀ (s t u : State) (x y : Stmt), s.cfg.latency = 0 → independent x y = true →
    runStmt x s = .next t → runStmt y t = .next u →
    ∃ t' u', runStmt y s = .next t' ∧ runStmt x t' = .next u' ∧ ∀ c, u'.readCell c = u.readCell c

/-! ## The output ports of a timed build (spec/20_memory.md R43, spec/70_reset_and_hazards.md R153) -/

/-- What the scoreboard's part of a step does. Either no transaction's wait is over, and the ports and every cell are as
they were; or one transaction completes, the oldest whose wait is over: both its outputs stand on the ports together and
in the cells it owned, every other cell is as it was, and it is in flight no more. All other waits go down by one. That
at most one completes, the oldest first, is the model's choice (log 12), and so is that the ports keep their answer
where none does (log 7). -/
def Obligations.CompletionDrivesOutputs : Prop :=
  ∀ s : State, s.Inv →
    ((∀ q ∈ s.inFlight, 1 < q.wait) ∧ (tick s).rsp = s.rsp ∧ (∀ x, (tick s).readCell x = s.readCell x) ∧
      (tick s).inFlight = countDown s.inFlight) ∨
    ∃ older p younger, s.inFlight = older ++ p :: younger ∧ (∀ q ∈ older, 1 < q.wait) ∧ p.wait ≤ 1 ∧
      (tick s).rsp = some p.rsp ∧
      (∀ d ∈ p.dest, (tick s).readCell d.rd = some p.rsp.lo ∧ (tick s).readCell d.rk = some p.rsp.carryOut) ∧
      (∀ x, x ∉ destCells p.dest → (tick s).readCell x = s.readCell x) ∧
      (tick s).inFlight = countDown (older ++ younger)

/-- In a timed build a step changes the output ports by a completion only (CompletionDrivesOutputs), never by the
transaction it takes or issues (R151, R153). That the ports otherwise keep their answer is the model's choice (log 7), and
so is that the scoreboard's part of the step comes first (log 14). -/
def Obligations.TimedPortsChangeOnlyAtCompletion : Prop :=
  ∀ s t : State, s.cfg.latency ≠ 0 → step s = .next t → t.rsp = (tick s).rsp

/-- Every incomplete transaction completes while the machine runs, whatever is issued meanwhile: after some number of
steps its outputs stand on the ports, unless the run has stopped by then. That waiting is counted in steps, and that the
oldest ready transaction completes first, is the model's choice (log 11, log 12, log 14); nothing rests on what the free
waits are. -/
def Obligations.RunningMachineShowsEveryAnswer : Prop :=
  ∀ (s : State) (p : Pending), s.Inv → p ∈ s.inFlight →
    ∃ m, 0 < m ∧ ((∃ t, core.run m s = .next t ∧ t.rsp = some p.rsp) ∨ ∀ t, core.run m s ≠ .next t)
end

