-- ==== Sys2Proof/Laws/State.lean ====
section
/-! SUPPORT. What each record update of the state leaves: one lemma per field per update. -/

namespace Sys2Proof.Machine.State

variable (s : State)

@[simp] theorem writeCell_cfg (c : CellName) (v : Word) : (s.writeCell c v).cfg = s.cfg := rfl
@[simp] theorem writeCell_request (c : CellName) (v : Word) : (s.writeCell c v).request = s.request := rfl
@[simp] theorem writeCell_rsp (c : CellName) (v : Word) : (s.writeCell c v).rsp = s.rsp := rfl
@[simp] theorem writeCell_cells (c : CellName) (v : Word) : (s.writeCell c v).cells = insertCell s.cells c v := rfl
@[simp] theorem writeCell_program (c : CellName) (v : Word) : (s.writeCell c v).program = s.program := rfl
@[simp] theorem writeCell_pc (c : CellName) (v : Word) : (s.writeCell c v).pc = s.pc := rfl
@[simp] theorem writeCell_inFlight (c : CellName) (v : Word) : (s.writeCell c v).inFlight = s.inFlight := rfl
@[simp] theorem writeCell_waitsDrawn (c : CellName) (v : Word) : (s.writeCell c v).waitsDrawn = s.waitsDrawn := rfl

@[simp] theorem advance_cfg : (s.advance).cfg = s.cfg := rfl
@[simp] theorem advance_request : (s.advance).request = s.request := rfl
@[simp] theorem advance_rsp : (s.advance).rsp = s.rsp := rfl
@[simp] theorem advance_cells : (s.advance).cells = s.cells := rfl
@[simp] theorem advance_program : (s.advance).program = s.program := rfl
@[simp] theorem advance_pc : (s.advance).pc = s.pc + 1 := rfl
@[simp] theorem advance_inFlight : (s.advance).inFlight = s.inFlight := rfl
@[simp] theorem advance_waitsDrawn : (s.advance).waitsDrawn = s.waitsDrawn := rfl

@[simp] theorem present_cfg (pins : List Pin) : (s.present pins).cfg = s.cfg := rfl
@[simp] theorem present_request (pins : List Pin) : (s.present pins).request = some pins := rfl
@[simp] theorem present_rsp (pins : List Pin) : (s.present pins).rsp = s.rsp := rfl
@[simp] theorem present_cells (pins : List Pin) : (s.present pins).cells = s.cells := rfl
@[simp] theorem present_program (pins : List Pin) : (s.present pins).program = s.program := rfl
@[simp] theorem present_pc (pins : List Pin) : (s.present pins).pc = s.pc := rfl
@[simp] theorem present_inFlight (pins : List Pin) : (s.present pins).inFlight = s.inFlight := rfl
@[simp] theorem present_waitsDrawn (pins : List Pin) : (s.present pins).waitsDrawn = s.waitsDrawn := rfl

@[simp] theorem sampled_cfg : (s.sampled).cfg = s.cfg := rfl
@[simp] theorem sampled_request : (s.sampled).request = none := rfl
@[simp] theorem sampled_rsp : (s.sampled).rsp = s.rsp := rfl
@[simp] theorem sampled_cells : (s.sampled).cells = s.cells := rfl
@[simp] theorem sampled_program : (s.sampled).program = s.program := rfl
@[simp] theorem sampled_pc : (s.sampled).pc = s.pc := rfl
@[simp] theorem sampled_inFlight : (s.sampled).inFlight = s.inFlight := rfl
@[simp] theorem sampled_waitsDrawn : (s.sampled).waitsDrawn = s.waitsDrawn := rfl

@[simp] theorem driveOutputs_cfg (r : Response) : (s.driveOutputs r).cfg = s.cfg := rfl
@[simp] theorem driveOutputs_request (r : Response) : (s.driveOutputs r).request = s.request := rfl
@[simp] theorem driveOutputs_rsp (r : Response) : (s.driveOutputs r).rsp = some r := rfl
@[simp] theorem driveOutputs_cells (r : Response) : (s.driveOutputs r).cells = s.cells := rfl
@[simp] theorem driveOutputs_program (r : Response) : (s.driveOutputs r).program = s.program := rfl
@[simp] theorem driveOutputs_pc (r : Response) : (s.driveOutputs r).pc = s.pc := rfl
@[simp] theorem driveOutputs_inFlight (r : Response) : (s.driveOutputs r).inFlight = s.inFlight := rfl
@[simp] theorem driveOutputs_waitsDrawn (r : Response) : (s.driveOutputs r).waitsDrawn = s.waitsDrawn := rfl

@[simp] theorem readCell_advance (x : CellName) : (s.advance).readCell x = s.readCell x := rfl
@[simp] theorem readCell_present (pins : List Pin) (x : CellName) : (s.present pins).readCell x = s.readCell x := rfl
@[simp] theorem readCell_sampled (x : CellName) : (s.sampled).readCell x = s.readCell x := rfl
@[simp] theorem readCell_driveOutputs (r : Response) (x : CellName) : (s.driveOutputs r).readCell x = s.readCell x := rfl

@[simp] theorem resetOf_cfg (c : Config) : (resetOf c).cfg = c := rfl
@[simp] theorem resetOf_request (c : Config) : (resetOf c).request = none := rfl
@[simp] theorem resetOf_rsp (c : Config) : (resetOf c).rsp = none := rfl
@[simp] theorem resetOf_cells (c : Config) : (resetOf c).cells = [] := rfl
@[simp] theorem resetOf_program (c : Config) : (resetOf c).program = [] := rfl
@[simp] theorem resetOf_pc (c : Config) : (resetOf c).pc = 0 := rfl
@[simp] theorem resetOf_inFlight (c : Config) : (resetOf c).inFlight = [] := rfl
@[simp] theorem resetOf_waitsDrawn (c : Config) : (resetOf c).waitsDrawn = 0 := rfl

end Sys2Proof.Machine.State
end

