-- ==== Sys2Proof/Laws/Cells.lean ====
section
/-! SUPPORT. The caller's cells: a read after a write, and the canonical form that every write keeps. -/

namespace Sys2Proof.Machine

theorem lookupCell_insertCell (cs : Cells) (c x : CellName) (v : Word) :
    lookupCell (insertCell cs c v) x = if c = x then some v else lookupCell cs x := by
  induction cs with
  | nil => rfl
  | cons head rest ih =>
    obtain ⟨n, u⟩ := head
    by_cases hlt : c < n
    · simp [insertCell, hlt, lookupCell]
    · by_cases heq : c = n
      · subst heq
        by_cases hx : c = x <;> simp [insertCell, lookupCell, hx]
      · by_cases hx : n = x
        · subst hx
          simp [insertCell, hlt, heq, lookupCell]
        · simp [insertCell, hlt, heq, lookupCell, hx, ih]

@[simp] theorem readCell_writeCell (s : State) (c x : CellName) (v : Word) :
    (s.writeCell c v).readCell x = if c = x then some v else s.readCell x :=
  lookupCell_insertCell s.cells c x v

theorem mem_insertCell {cs : Cells} {c : CellName} {v : Word} {x : CellName × Word}
    (h : x ∈ insertCell cs c v) : x = (c, v) ∨ x ∈ cs := by
  induction cs with
  | nil => exact .inl (by simpa [insertCell] using h)
  | cons head rest ih =>
    obtain ⟨n, u⟩ := head
    unfold insertCell at h
    split at h
    · simpa using h
    · split at h
      · rcases List.mem_cons.mp h with rfl | hr
        · exact .inl rfl
        · exact .inr (List.mem_cons_of_mem _ hr)
      · rcases List.mem_cons.mp h with rfl | hr
        · exact .inr (List.mem_cons_self)
        · exact (ih hr).imp_right (List.mem_cons_of_mem _)

theorem insertCell_rising {cs : Cells} (c : CellName) (v : Word) (h : CellsRising cs) :
    CellsRising (insertCell cs c v) := by
  induction cs with
  | nil => simp [insertCell, CellsRising]
  | cons head rest ih =>
    obtain ⟨n, u⟩ := head
    have hh := List.pairwise_cons.mp h
    unfold insertCell
    split
    · rename_i hlt
      refine List.pairwise_cons.mpr ⟨fun x hx => ?_, h⟩
      rcases List.mem_cons.mp hx with rfl | hr
      · exact hlt
      · exact Nat.lt_trans hlt (hh.1 x hr)
    · split
      · rename_i heq
        subst heq
        exact List.pairwise_cons.mpr ⟨hh.1, hh.2⟩
      · rename_i hlt hne
        refine List.pairwise_cons.mpr ⟨fun x hx => ?_, ih hh.2⟩
        rcases mem_insertCell hx with rfl | hr
        · exact Nat.lt_of_le_of_ne (Nat.not_lt.mp hlt) (Ne.symm hne)
        · exact hh.1 x hr

theorem insertCell_fit {cs : Cells} {n : Nat} {c : CellName} {v : Word} (h : ∀ x ∈ cs, x.2.Fits n) (hv : v.Fits n) :
    ∀ x ∈ insertCell cs c v, x.2.Fits n := fun x hx => by
  rcases mem_insertCell hx with rfl | hr
  · exact hv
  · exact h x hr

/-- A value read from cells that all fit fits. -/
theorem lookupCell_mem {cs : Cells} {c : CellName} {v : Word} (h : lookupCell cs c = some v) : (c, v) ∈ cs := by
  induction cs with
  | nil => simp [lookupCell] at h
  | cons head rest ih =>
    obtain ⟨n, u⟩ := head
    unfold lookupCell at h
    split at h
    · rename_i hn
      cases h
      subst hn
      exact List.mem_cons_self
    · exact List.mem_cons_of_mem _ (ih h)

/-- What writing a transaction's outputs back does to every cell (spec/30_encoding.md R67). -/
theorem readCell_writeBack_some (d : Dest) (r : Response) (s : State) (x : CellName) :
    (writeBack (some d) r s).readCell x =
      if d.rk = x then some r.carryOut else if d.rd = x then some r.lo else s.readCell x := by
  simp [writeBack]

/-- A cell a transaction does not own keeps its value when the transaction completes. -/
theorem readCell_writeBack_of_not_owned {dest : Option Dest} {x : CellName} (r : Response) (s : State)
    (h : x ∉ destCells dest) : (writeBack dest r s).readCell x = s.readCell x := by
  cases dest with
  | none => rfl
  | some d =>
    have hd : ¬ d.rd = x ∧ ¬ d.rk = x := by
      constructor <;> intro he <;> apply h <;> simp [destCells, he]
    simp [writeBack, hd.1, hd.2]

end Sys2Proof.Machine
end

