-- ==== Sys2Proof/Laws/Ops.lean ====
section
/-! SUPPORT. The shared operations over the scoreboard and the ports: what each of them leaves, and the cases of a tick. -/

namespace Sys2Proof.Machine

section WriteBack
variable (dest : Option Dest) (r : Response) (s : State)

@[simp] theorem writeBack_cfg : (writeBack dest r s).cfg = s.cfg := by cases dest <;> rfl
@[simp] theorem writeBack_request : (writeBack dest r s).request = s.request := by cases dest <;> rfl
@[simp] theorem writeBack_rsp : (writeBack dest r s).rsp = s.rsp := by cases dest <;> rfl
@[simp] theorem writeBack_program : (writeBack dest r s).program = s.program := by cases dest <;> rfl
@[simp] theorem writeBack_pc : (writeBack dest r s).pc = s.pc := by cases dest <;> rfl
@[simp] theorem writeBack_inFlight : (writeBack dest r s).inFlight = s.inFlight := by cases dest <;> rfl
@[simp] theorem writeBack_waitsDrawn : (writeBack dest r s).waitsDrawn = s.waitsDrawn := by cases dest <;> rfl

end WriteBack

section Retire
variable (p : Pending) (s : State)

@[simp] theorem retire_cfg : (retire p s).cfg = s.cfg := by simp [retire]
@[simp] theorem retire_request : (retire p s).request = s.request := by simp [retire]
@[simp] theorem retire_rsp : (retire p s).rsp = some p.rsp := by simp [retire]
@[simp] theorem retire_program : (retire p s).program = s.program := by simp [retire]
@[simp] theorem retire_pc : (retire p s).pc = s.pc := by simp [retire]
@[simp] theorem retire_inFlight : (retire p s).inFlight = s.inFlight := by simp [retire]
@[simp] theorem retire_waitsDrawn : (retire p s).waitsDrawn = s.waitsDrawn := by simp [retire]

end Retire

/-- What a tick does: nothing completes, or one transaction whose wait is over does. -/
theorem tick_cases (s : State) :
    (takeReady (countDown s.inFlight) = none ∧ tick s = { s with inFlight := countDown s.inFlight }) ∨
    ∃ p others, takeReady (countDown s.inFlight) = some (p, others) ∧
      tick s = retire p { s with inFlight := others } := by
  unfold tick
  cases h : takeReady (countDown s.inFlight) with
  | none => exact .inl ⟨rfl, rfl⟩
  | some q => exact .inr ⟨q.1, q.2, rfl, rfl⟩

section Tick
variable (s : State)

@[simp] theorem tick_cfg : (tick s).cfg = s.cfg := by
  rcases tick_cases s with ⟨-, h⟩ | ⟨p, o, -, h⟩ <;> simp [h]
@[simp] theorem tick_request : (tick s).request = s.request := by
  rcases tick_cases s with ⟨-, h⟩ | ⟨p, o, -, h⟩ <;> simp [h]
@[simp] theorem tick_program : (tick s).program = s.program := by
  rcases tick_cases s with ⟨-, h⟩ | ⟨p, o, -, h⟩ <;> simp [h]
@[simp] theorem tick_pc : (tick s).pc = s.pc := by
  rcases tick_cases s with ⟨-, h⟩ | ⟨p, o, -, h⟩ <;> simp [h]
@[simp] theorem tick_waitsDrawn : (tick s).waitsDrawn = s.waitsDrawn := by
  rcases tick_cases s with ⟨-, h⟩ | ⟨p, o, -, h⟩ <;> simp [h]

end Tick

/-- With nothing in flight a tick changes nothing (spec/20_memory.md R48). -/
theorem tick_of_settled {s : State} (h : s.inFlight = []) : tick s = s := by
  cases s
  simp_all [tick, countDown, takeReady]

/-- The ready transaction stood in the list, before the others it had before it and after it. -/
theorem takeReady_split {fl : List Pending} {p : Pending} {others : List Pending}
    (h : takeReady fl = some (p, others)) :
    ∃ before after, fl = before ++ p :: after ∧ others = before ++ after ∧ p.wait = 0 ∧ ∀ q ∈ before, q.wait ≠ 0 := by
  induction fl generalizing others with
  | nil => simp [takeReady] at h
  | cons q rest ih =>
    unfold takeReady at h
    split at h
    · rename_i hw
      cases h
      exact ⟨[], rest, rfl, rfl, hw, by simp⟩
    · rename_i hw
      split at h
      · cases h
      · rename_i p' o' hrest
        cases h
        obtain ⟨b, a, h1, h2, h3, h4⟩ := ih hrest
        exact ⟨q :: b, a, by simp [h1], by simp [h2], h3, by simpa using ⟨hw, h4⟩⟩

/-- How the block's answer is settled in a combinational build (spec/20_memory.md R48). -/
theorem settle_untimed {before t : State} {dest : Option Dest} {r : Response} (hr : t.rsp = some r)
    (hl : t.cfg.latency = 0) : settle before dest t = writeBack dest r t := by
  simp [settle, hr, hl]

/-- How the block's answer is settled in a timed build (spec/70_reset_and_hazards.md R153). -/
theorem settle_timed {before t : State} {dest : Option Dest} {r : Response} (hr : t.rsp = some r)
    (hl : t.cfg.latency ≠ 0) :
    settle before dest t =
      { t with
        rsp := before.rsp
        inFlight := t.inFlight ++ [⟨dest, r, Config.freeWait t.cfg t.waitsDrawn (before.request.getD [])⟩]
        waitsDrawn := t.waitsDrawn + 1 } := by
  simp [settle, hr, hl]

end Sys2Proof.Machine
end

