-- ==== Sys2Proof/Laws/Exec.lean ====
section
/-! SUPPORT. What executing a transaction can do: one law for `exec`, and the two views of a Word as port wires. -/

namespace Sys2Proof.Machine

theorem width_le (W : Width) : W.bits ≤ 64 := by cases W <;> decide

theorem width_pos (W : Width) : 0 < W.bits := by cases W <;> decide

theorem width_even (W : Width) : W.bits = 2 * (W.bits / 2) := by cases W <;> rfl

theorem two_pow_width_le (W : Width) : 2 ^ W.bits ≤ 2 ^ 64 := Nat.pow_le_pow_right (by decide) (width_le W)

/-- The wires of a port carry a Word of the build unchanged. -/
theorem toNat_portBits {W : Width} {x : Word} (h : x.Fits W.bits) : (portBits W x).toNat = x.toNat := by
  simp [portBits, Nat.mod_eq_of_lt h]

@[simp] theorem toNat_ofPortBits (W : Width) (x : BitVec W.bits) : (ofPortBits W x).toNat = x.toNat := by
  simp only [ofPortBits, BitVec.toNat_setWidth]
  exact Nat.mod_eq_of_lt (Nat.lt_of_lt_of_le x.isLt (two_pow_width_le W))

theorem ofPortBits_fits (W : Width) (x : BitVec W.bits) : (ofPortBits W x).Fits W.bits := by
  simpa [Word.Fits] using x.isLt

/-- Every response of the block is two Words of the build (spec/10_state.md R22). -/
theorem respond_fits (c : Config) (i : Instr) : (respond c i).Fits c.width := by
  cases i <;> exact ⟨ofPortBits_fits _ _, ofPortBits_fits _ _⟩

theorem operandsFit_iff (W : Width) (a b addend carryIn : Word) :
    operandsFit W a b addend carryIn = true ↔
      a.Fits W.bits ∧ b.Fits W.bits ∧ addend.Fits W.bits ∧ carryIn.Fits W.bits := by
  simp [operandsFit, and_assoc]

/-- All `exec` can do: drive the response of a well-formed transaction, or refuse a term that is no transaction of the
build. -/
theorem exec_eq (i : Instr) (s : State) :
    exec i s = if i.wf s.cfg.width then .next (s.driveOutputs (respond s.cfg i)) else .refused .operandTooWide := by
  cases i <;> rfl

theorem exec_of_wf {i : Instr} {s : State} (h : i.wf s.cfg.width = true) :
    exec i s = .next (s.driveOutputs (respond s.cfg i)) := by
  simp [exec_eq, h]

theorem exec_next_inv {i : Instr} {s t : State} (h : exec i s = .next t) :
    i.wf s.cfg.width = true ∧ t = s.driveOutputs (respond s.cfg i) := by
  rw [exec_eq] at h
  split at h
  · rename_i hw
    cases h
    exact ⟨hw, rfl⟩
  · cases h

theorem exec_ne_fault (i : Instr) (s : State) (f : Fault) : exec i s ≠ .fault f := by
  rw [exec_eq]
  split <;> simp

end Sys2Proof.Machine
end

