-- ==== Sys2Proof/Laws/PerInstr.lean ====
section
/-! SUPPORT. Facts made once per instruction: the opcode bit of each instruction's request (spec/30_encoding.md R62). -/

namespace Sys2Proof.Laws.Opcode

/-- In every build, `TXN & 0x1` of the instruction's request is the match value of its row of spec/opcode_table.json
(spec/30_encoding.md R62). -/
def Statement (i : Instr) : Prop := ∀ W : Width, encodeTxn W i &&& 1 = BitVec.ofNat (txnBits W) i.op

/-- Bit 0 of a packed request is its `op` field. -/
theorem packTxn_and_one (W : Width) (op : Nat) (h : op < 2) (a b addend carryIn : Word) :
    packTxn W op a b addend carryIn &&& 1 = BitVec.ofNat (txnBits W) op := by
  have hlt : ∀ n : Nat, n < 2 → n < 2 ^ txnBits W := fun n hn => by
    have : 2 ^ 1 ≤ 2 ^ txnBits W := Nat.pow_le_pow_right (by decide) (by simp [txnBits])
    omega
  have hone : (1 : BitVec (txnBits W)).toNat = 1 := Nat.mod_eq_of_lt (hlt 1 (by decide))
  have htwo : ∀ n : Nat, 2 ∣ 2 ^ (n + 1) := fun n => Dvd.intro_left _ (Nat.pow_succ ..).symm
  obtain ⟨x, hx⟩ := htwo W.bits
  obtain ⟨y, hy⟩ := htwo (2 * W.bits)
  obtain ⟨z, hz⟩ := htwo (3 * W.bits)
  apply BitVec.eq_of_toNat_eq
  rw [BitVec.toNat_and, hone, BitVec.toNat_ofNat, Nat.mod_eq_of_lt (hlt op h), Nat.and_one_is_mod, packTxn,
    BitVec.toNat_ofNat, Nat.mod_mod_of_dvd _ (show 2 ∣ 2 ^ txnBits W from htwo _), hx, hy, hz]
  simp only [Nat.mul_left_comm _ 2 _]
  omega

theorem madd2 (a b addend carryIn : Word) : Statement (.madd2 a b addend carryIn) :=
  fun W => packTxn_and_one W 0 (by decide) a b addend carryIn

theorem madd3 (a b addend carryIn : Word) : Statement (.madd3 a b addend carryIn) :=
  fun W => packTxn_and_one W 1 (by decide) a b addend carryIn

end Sys2Proof.Laws.Opcode
end

