-- ==== Sys2Proof/Laws/Pins.lean ====
section
/-! SUPPORT. Pins and the values on them: the two directions between a number and the pins that carry it. -/

namespace Sys2Proof

@[simp] theorem length_pinsOf (n v : Nat) : (pinsOf n v).length = n := by
  induction n generalizing v with
  | zero => rfl
  | succ n ih => simp [pinsOf, ih]

theorem pinsValue_pinsOf (n v : Nat) : pinsValue (pinsOf n v) = some (v % 2 ^ n) := by
  induction n generalizing v with
  | zero => simp [pinsOf, pinsValue, Nat.mod_one]
  | succ n ih =>
    have hmod : v % 2 ^ (n + 1) = v % 2 + 2 * (v / 2 % 2 ^ n) := by
      rw [Nat.pow_succ', Nat.mod_mul]
    unfold pinsOf
    split
    · rename_i h
      simp [pinsValue, ih, hmod, h, Nat.add_comm]
    · rename_i h
      have h0 : v % 2 = 0 := by omega
      simp [pinsValue, ih, hmod, h0]

/-- Pins have a value exactly when every one of them is definite (spec/10_state.md R23). -/
theorem pinsValue_eq_none_iff (pins : List Pin) : pinsValue pins = none ↔ Pin.undriven ∈ pins := by
  induction pins with
  | nil => simp [pinsValue]
  | cons p ps ih => cases p <;> simp [pinsValue, ih]

theorem pinsOf_pinsValue {pins : List Pin} {v : Nat} (h : pinsValue pins = some v) :
    v < 2 ^ pins.length ∧ pinsOf pins.length v = pins := by
  induction pins generalizing v with
  | nil =>
    cases h
    exact ⟨Nat.one_pos, rfl⟩
  | cons p ps ih =>
    cases p with
    | undriven => simp [pinsValue] at h
    | low =>
      simp only [pinsValue, Option.map_eq_some_iff] at h
      obtain ⟨u, hu, rfl⟩ := h
      have := ih hu
      constructor
      · simp only [List.length_cons, Nat.pow_succ]; omega
      · simp [pinsOf, this.2]
    | high =>
      simp only [pinsValue, Option.map_eq_some_iff] at h
      obtain ⟨u, hu, rfl⟩ := h
      have := ih hu
      constructor
      · simp only [List.length_cons, Nat.pow_succ]; omega
      · have hd : (2 * u + 1) / 2 = u := by omega
        simp [pinsOf, hd, this.2, Nat.add_mod]

end Sys2Proof
end

