-- ==== Sys2Proof/Laws/Step.lean ====
section
/-! SUPPORT. What a transaction, a harness statement and a step can do, said once. -/

namespace Sys2Proof.Machine

/-- All a taken transaction can do (spec/20_memory.md R43): its request decoded, executed and settled. -/
theorem transact_next_inv {dest : Option Dest} {s t : State} {pins : List Pin} (hp : s.request = some pins)
    (h : transact dest s = .next t) :
    ∃ i, decode s.cfg.width pins = .ok i ∧ i.wf s.cfg.width = true ∧
      t = settle s dest (s.sampled.driveOutputs (respond s.cfg i)) := by
  unfold transact at h
  simp only [hp] at h
  split at h
  · cases h
  · cases h
  · rename_i i hi
    split at h
    · rename_i u hu
      cases h
      obtain ⟨hw, rfl⟩ := exec_next_inv hu
      exact ⟨i, hi, hw, rfl⟩
    · cases h
    · cases h

theorem transact_of_decode {dest : Option Dest} {s : State} {pins : List Pin} {i : Instr} (hp : s.request = some pins)
    (hd : decode s.cfg.width pins = .ok i) (hw : i.wf s.cfg.width = true) :
    transact dest s = .next (settle s dest (s.sampled.driveOutputs (respond s.cfg i))) := by
  have he := exec_of_wf (i := i) (s := s.sampled) (by simpa using hw)
  simp only [State.sampled_cfg] at he
  simp [transact, hp, hd, he]

section Settle
variable (before : State) (dest : Option Dest) (t : State)

@[simp] theorem settle_cfg : (settle before dest t).cfg = t.cfg := by
  unfold settle
  split
  · rfl
  · split <;> simp
@[simp] theorem settle_request : (settle before dest t).request = t.request := by
  unfold settle
  split
  · rfl
  · split <;> simp
@[simp] theorem settle_program : (settle before dest t).program = t.program := by
  unfold settle
  split
  · rfl
  · split <;> simp
@[simp] theorem settle_pc : (settle before dest t).pc = t.pc := by
  unfold settle
  split
  · rfl
  · split <;> simp

end Settle

/-- The cases of a step, after the scoreboard's part. -/
theorem step_cases (s : State) :
    (∃ pins, s.request = some pins ∧ step s = transact none (tick s)) ∨
    (s.request = none ∧ s.program[s.pc]? = none ∧ step s = .next (tick s)) ∨
    ∃ st, s.request = none ∧ s.program[s.pc]? = some st ∧
      step s = if held (tick s) st then .next (tick s) else runStmt st (tick s) := by
  unfold step stepCaller
  cases hr : s.request with
  | some pins => exact .inl ⟨pins, rfl, by simp [hr]⟩
  | none =>
    refine .inr ?_
    cases hp : s.program[s.pc]? with
    | none => exact .inl ⟨rfl, rfl, by simp [hr, stepHarness, hp]⟩
    | some st => exact .inr ⟨st, rfl, rfl, by simp [hr, stepHarness, hp]⟩

end Sys2Proof.Machine
end

