-- ==== Sys2Proof/Tests/Slice0.lean ====
section
/-! SUPPORT. Tests against spec/95_test_vectors.md and the rules' worked examples, the WellFormed smoke tests, and for
every statement with hypotheses a witness that meets them together. -/

namespace Sys2Proof.Tests

open Sys2Proof.Machine

/-! ## Helpers -/

/-- A combinational build of width `W` that uses the fallback with the limb decomposition. -/
def fallbackBuild (W : Width) : Config := ⟨W, false, true, .limbDecomp, 0⟩

/-- A combinational build of width `W` that uses the fast path. -/
def fastBuild (W : Width) : Config := ⟨W, true, false, .hwMul, 0⟩

/-- The outputs on the ports after one step. -/
def stepRsp (s : State) : Option Response :=
  match step s with
  | .next t => t.rsp
  | _ => none

/-- The caller's cells after one step. -/
def stepCells (s : State) : Option Cells :=
  match step s with
  | .next t => some t.cells
  | _ => none

/-- The fault of one step. -/
def stepFault (s : State) : Option Fault :=
  match step s with
  | .fault f => some f
  | _ => none

/-- A W = 8 harness about to run one statement over some cells. -/
def harness (st : Stmt) (cells : Cells) : State := { State.reset with program := [st], cells := cells }

/-- A W = 8 block with LATENCY = 1, its scoreboard holding a transaction that owns cells 5 and 6 and waits two steps. -/
def timedState : State :=
  { State.resetOf { Config.reference with latency := 1 } with
    cells := [(1, 0xFF), (6, 0x01)]
    rsp := some ⟨0x10, 0x20⟩
    inFlight := [⟨some ⟨5, 6⟩, ⟨0xFF, 0xFE⟩, 2⟩] }

/-- The same block one step before that transaction completes, with a younger one that waits longer. -/
def readyState : State :=
  { timedState with inFlight := [⟨some ⟨5, 6⟩, ⟨0xFF, 0xFE⟩, 1⟩, ⟨none, ⟨0x01, 0x02⟩, 3⟩] }

/-! ## Well-formedness: one ill-formed term for each check -/

theorem test_wf_madd2_max : (Instr.madd2 0xFF 0xFF 0xFF 0xFF).wf .w8 = true := by decide
theorem test_wf_madd2_a : (Instr.madd2 0x100 0 0 0).wf .w8 = false := by decide
theorem test_wf_madd2_b : (Instr.madd2 0 0x100 0 0).wf .w8 = false := by decide
theorem test_wf_madd2_addend : (Instr.madd2 0 0 0x100 0).wf .w8 = false := by decide
theorem test_wf_madd2_carryIn : (Instr.madd2 0 0 0 0x100).wf .w8 = false := by decide
theorem test_wf_madd3_a : (Instr.madd3 0x10000 0 0 0).wf .w16 = false := by decide
theorem test_wf_madd3_b : (Instr.madd3 0 0x10000 0 0).wf .w16 = false := by decide
theorem test_wf_madd3_addend : (Instr.madd3 0 0 0x100000000 0).wf .w32 = false := by decide
theorem test_wf_madd3_carryIn : (Instr.madd3 0 0 0 0x100000000).wf .w32 = false := by decide

/-! ## Decoding -/

/-- opcode_table.json, encoding_W8 of MADD2, fields k c b a op: vector X9. -/
theorem test_decode_madd2 :
    decode .w8 (pinsOf 33 0b010101101010101100110100000100100) = .ok (.madd2 0x12 0x34 0xAB 0x56) := by decide +kernel

/-- opcode_table.json, encoding_W8 of MADD3, fields k c b a op: vector X8. -/
theorem test_decode_madd3 :
    decode .w8 (pinsOf 33 0b111111111111111100000010100000001) = .ok (.madd3 0x80 0x02 0xFF 0xFF) := by decide +kernel

/-- The first request of program P5, W = 64. -/
theorem test_decode_w64 :
    decode .w64 (pinsOf 257 0x022222222222222220000000000000001BD5B7DDF95FDE01BFDB97530ECA86420) =
      .ok (.madd2 0xFEDCBA9876543210 0xDEADBEEFCAFEF00D 0 0x1111111111111111) := by decide +kernel

/-- The first request of program P2, W = 16. -/
theorem test_decode_w16 :
    decode .w16 (pinsOf 65 0x00001FFFFFFFFFFFF) = .ok (.madd3 0xFFFF 0xFFFF 0xFFFF 0) := by decide +kernel

/-- The second request of program P3, W = 32. -/
theorem test_decode_w32 :
    decode .w32 (pinsOf 129 0x1FFFFFFFE000000000000000000000000) = .ok (.madd2 0 0 0 0xFFFFFFFF) := by decide +kernel

/-- R65: a vector of another length is no request. -/
theorem test_decode_wrong_length : decode .w8 (pinsOf 32 0) = .error .wrongLength := by decide +kernel

/-- R64: one pin that is not definite, in MADD2's ignored addend. -/
theorem test_decode_undriven :
    decode .w8 ((pinsOf 33 0x0AD566824).set 20 .undriven) = .error .undrivenInput := by decide +kernel

theorem test_table_words :
    decodeTableWord 8 0 = some (.madd2 0 0 0 0) ∧ decodeTableWord 8 1 = some (.madd3 0 0 0 0) ∧
    decodeTableWord 40 0x1FFFE0501 = some (.madd3 0x80 0x02 0xFF 0xFF) ∧ decodeTableWord 40 0x200000000 = none := by
  decide +kernel

/-! ## The operations -/

/-- X9: MADD2 ignores the addend. -/
theorem test_madd2_step : stepRsp (State.reset.withFetchWord 40 0x0AD566824) = some ⟨0xFE, 0x03⟩ := by decide +kernel

/-- E6, corrected by 90_conflicts.md C1, on both strategies. -/
theorem test_madd2_scenario :
    respond (fastBuild .w32) (.madd2 0xFFFFFFFF 0xFFFFFFFF 0 0xFFFFFFFF) = ⟨0x00000000, 0xFFFFFFFF⟩ ∧
    respond (fallbackBuild .w32) (.madd2 0xFFFFFFFF 0xFFFFFFFF 0 0xFFFFFFFF) = ⟨0x00000000, 0xFFFFFFFF⟩ := by
  decide +kernel

/-- X8: a carry from the product and one from each term. -/
theorem test_madd3_step : stepRsp (State.reset.withFetchWord 40 0x1FFFE0501) = some ⟨0xFE, 0x02⟩ := by decide +kernel

/-- T3, W = 64, on both strategies. -/
theorem test_madd3_w64 :
    respond (fastBuild .w64) (.madd3 0x0123456789ABCDEF 0xFEDCBA9876543210 0x1111111111111111 0x8000000000000000) =
      ⟨0xB347E9A0F6729E01, 0x0121FA00AD77D742⟩ ∧
    respond (fallbackBuild .w64) (.madd3 0x0123456789ABCDEF 0xFEDCBA9876543210 0x1111111111111111 0x8000000000000000) =
      ⟨0xB347E9A0F6729E01, 0x0121FA00AD77D742⟩ := by
  decide +kernel

/-- Trace T1: the registers of the limb decomposition, all-maximum operands, W = 64. -/
theorem test_limb_trace_T1 :
    limbSteps (0xFFFFFFFFFFFFFFFF : BitVec 64) 0xFFFFFFFFFFFFFFFF =
      { x0 := 0xFFFFFFFE00000001, x1 := 0xFFFFFFFE00000001, x2 := 0xFFFFFFFE00000001, x3 := 0xFFFFFFFE00000001,
        x2Mid := 0xFFFFFFFEFFFFFFFF, x2Final := 0xFFFFFFFD00000000, cy := 1, x0Final := 0xFFFFFFFF00000001,
        ph := 0xFFFFFFFFFFFFFFFE, pl := 0x0000000000000001 } := by decide +kernel

/-- Trace T4: the registers of the limb decomposition and the fallback stage, W = 64. -/
theorem test_limb_trace_T4 :
    (limbSteps (0x00000001FFFFFFFF : BitVec 64) 0x00000001FFFFFFFF).x2Mid = 0x00000001FFFFFFFD ∧
    (limbSteps (0x00000001FFFFFFFF : BitVec 64) 0x00000001FFFFFFFF).x2Final = 0x00000002FFFFFFFC ∧
    splitMul .limbDecomp (0x00000001FFFFFFFF : BitVec 64) 0x00000001FFFFFFFF = (0xFFFFFFFC00000001, 3) ∧
    addStage (0xFFFFFFFFFFFFFFFF : BitVec 64) (0xFFFFFFFC00000001, 3) = (0xFFFFFFFC00000000, 4) := by decide +kernel

/-- R69: the response vector. -/
theorem test_response_vector : encodeResponse .w8 0x01 0xFE = 0xFE01 := by decide +kernel

/-! ## The harness -/

/-- P1, its second MADD2: cells x1 = 0, y = 1, k = 2, z1 = 3. -/
theorem test_harness_madd2 :
    stepCells (harness (.madd2 3 (.cell 0) (.cell 1) 2) [(0, 0xFF), (1, 0xFF), (2, 0xFE)]) =
      some [(0, 0xFF), (1, 0xFF), (2, 0xFE), (3, 0xFF)] := by decide +kernel

/-- P2, its first MADD3, at W = 16: the addend cell receives lo. Cells x0 = 0, y = 1, z0 = 2, k = 3. -/
theorem test_harness_madd3 :
    stepCells { State.resetOf (fallbackBuild .w16) with
      program := [.madd3 2 (.cell 0) (.cell 1) (.cell 2) 3]
      cells := [(0, 0xFFFF), (1, 0xFFFF), (2, 0xFFFF), (3, 0)] } =
      some [(0, 0xFFFF), (1, 0xFFFF), (2, 0), (3, 0xFFFF)] := by decide +kernel

/-- F1. -/
theorem test_fault_undriven :
    stepFault (State.reset.present ((pinsOf 33 0x1FE01FFFE).set 32 .undriven)) = some .undrivenInput := by decide +kernel

/-- F2. -/
theorem test_fault_unwritten : stepFault (harness (.madd2 1 (.imm 1) (.imm 1) 0) []) = some .unwrittenCell := by
  decide +kernel

/-- F3. -/
theorem test_fault_dest : stepFault (harness (.madd2 0 (.imm 1) (.imm 1) 0) [(0, 0)]) = some .destEqualsCarry := by
  decide +kernel

/-- F4. -/
theorem test_reject_w24 : buildConfig 24 false false .hwMul 0 = .error .unsupportedWidth := by decide

/-- 70_reset_and_hazards.md R151: in a timed build the outputs of a request just taken are not visible. -/
theorem test_timed_no_output :
    stepRsp ((State.resetOf { Config.reference with latency := 1 }).withFetchWord 8 0) = none := by decide +kernel

/-- 20_memory.md R43, 70_reset_and_hazards.md R153: a completion shows both outputs at once, on the ports and in rd and rk. -/
theorem test_completion :
    stepRsp readyState = some ⟨0xFF, 0xFE⟩ ∧ stepCells readyState = some [(1, 0xFF), (5, 0xFF), (6, 0xFE)] := by
  decide +kernel

/-! ## Witnesses: the hypotheses of each statement, met together -/

theorem test_hyp_fits_boundary :
    Word.Fits Width.w8.bits 0xFF ∧ Word.Fits Width.w16.bits 0xFFFF ∧ Word.Fits Width.w32.bits 0xFFFFFFFF ∧
    Word.Fits Width.w64.bits 0xFFFFFFFFFFFFFFFF ∧ Word.Fits Width.w8.bits 0 := by decide

/-- Madd2GivesExactSum, Madd3GivesExactSum, SumNeverOverflows, RequestLayout: four Words of the reference build. -/
theorem test_hyp_four_words :
    Word.Fits State.reset.cfg.width.bits 0xFF ∧ Word.Fits State.reset.cfg.width.bits 0x02 ∧
    Word.Fits State.reset.cfg.width.bits 0 ∧ Word.Fits State.reset.cfg.width.bits 0x01 := by decide

/-- OutputsRecombineToExactSum, TransactionChangesOnlyItsOutputs: MADD2 completes. -/
theorem test_hyp_exec_next_madd2 : ∃ t, exec (.madd2 0xFF 0xFF 0xFF 0xFF) State.reset = .next t :=
  ⟨_, exec_of_wf (by decide)⟩

/-- OutputsRecombineToExactSum, TransactionChangesOnlyItsOutputs: MADD3 completes. -/
theorem test_hyp_exec_next_madd3 : ∃ t, exec (.madd3 0xFF 0xFF 0xFF 0xFF) State.reset = .next t :=
  ⟨_, exec_of_wf (by decide)⟩

/-- Madd2IsMadd3WithZeroAddend, Madd2IgnoresAddend (first clause): two addends that fit. -/
theorem test_hyp_addends : Word.Fits State.reset.cfg.width.bits 0xFF ∧ Word.Fits State.reset.cfg.width.bits 0 := by decide

/-- Madd2IgnoresAddend (second clause), HarnessMadd2WritesBack, HarnessMadd3WritesBack: a harness statement whose operands
are readable, with operand cells that are rd and rk. -/
theorem test_hyp_harness :
    let s := harness (.madd2 1 (.cell 1) (.imm 0xFF) 2) [(1, 0xFF), (2, 0xFE)]
    s.cfg.latency = 0 ∧ s.inFlight = [] ∧ s.request = none ∧ s.program[s.pc]? = some (.madd2 1 (.cell 1) (.imm 0xFF) 2) ∧
    (1 : CellName) ≠ 2 ∧ readOperand s (.cell 1) = some 0xFF ∧ readOperand s (.imm 0xFF) = some 0xFF ∧
    readOperand s (.cell 2) = some 0xFE ∧ s.readCell 2 = some 0xFE ∧ Word.Fits s.cfg.width.bits 0xFF ∧
    Word.Fits s.cfg.width.bits 0xFE := by decide

theorem test_hyp_harness_madd3 :
    let s := harness (.madd3 1 (.cell 1) (.imm 0xFF) (.cell 2) 2) [(1, 0xFF), (2, 0xFE)]
    s.cfg.latency = 0 ∧ s.inFlight = [] ∧ s.request = none ∧
    s.program[s.pc]? = some (.madd3 1 (.cell 1) (.imm 0xFF) (.cell 2) 2) ∧ readOperand s (.cell 1) = some 0xFF ∧
    readOperand s (.imm 0xFF) = some 0xFF ∧ readOperand s (.cell 2) = some 0xFE ∧ s.readCell 2 = some 0xFE := by decide

/-- HarnessIssuesItsTransaction, both clauses: statements of a timed build that are not held, with operands written. -/
theorem test_hyp_harness_issue :
    let st := Stmt.madd2 2 (.cell 1) (.imm 0xFF) 1
    let st' := Stmt.madd3 2 (.cell 1) (.imm 0xFF) (.imm 0) 1
    let s := { timedState with program := [st, st'] }
    let s' := { s with pc := 1 }
    s.request = none ∧ (2 : CellName) ≠ 1 ∧ readOperand (tick s) (.cell 1) = some 0xFF ∧
    readOperand (tick s) (.imm 0xFF) = some 0xFF ∧ (tick s).readCell 1 = some 0xFF ∧ s.program[s.pc]? = some st ∧
    st.fits s.cfg.width = true ∧ held (tick s) st = false ∧ s'.request = none ∧
    readOperand (tick s') (.cell 1) = some 0xFF ∧ readOperand (tick s') (.imm 0) = some 0 ∧
    (tick s').readCell 1 = some 0xFF ∧ s'.program[s'.pc]? = some st' ∧ st'.fits s'.cfg.width = true ∧
    held (tick s') st' = false := by decide

/-- MaximalInputs, its uniqueness clause: the all-maximum MADD2 gives carry_out = MAX (V8-2). -/
theorem test_hyp_maximal :
    ∃ lo, exec (.madd2 0xFF 0xFF 0 0xFF) State.reset = .next (State.reset.driveOutputs ⟨lo, Word.max 8⟩) :=
  ⟨0, (exec_of_wf (by decide)).trans
    (congrArg (fun r => Host.Outcome.next (State.reset.driveOutputs r))
      (show respond State.reset.cfg (.madd2 0xFF 0xFF 0 0xFF) = ⟨0, Word.max 8⟩ by decide +kernel))⟩

/-- ZeroProductIsCarryChainAdd, ZeroCarryChainPassesCarryThrough: a zero factor on each side, terms at MAX. -/
theorem test_hyp_zero_product :
    (((0 : Word) = 0 ∨ (0xFF : Word) = 0) ∧ ((0xFF : Word) = 0 ∨ (0 : Word) = 0)) ∧
    Word.Fits State.reset.cfg.width.bits 0xFF ∧ Word.Fits State.reset.cfg.width.bits 0 := by decide

/-- OutputsDependOnInputsAlone, StrategiesAgree: two builds of one width that differ in everything else. -/
theorem test_hyp_two_builds :
    (State.resetOf (fastBuild .w64)).cfg.width = (State.resetOf (fallbackBuild .w64)).cfg.width ∧
    (fastBuild .w64).strategy = .fast ∧ (fallbackBuild .w64).strategy = .fallback ∧
    (Instr.madd3 0xFFFFFFFFFFFFFFFF 1 2 3).wf (State.resetOf (fastBuild .w64)).cfg.width = true := by decide

/-- DecodeOfEncode, ResponseVectorIsExactSum, EveryDefiniteRequestIsOneOperation (third clause), TimedIssueOwnsItsCells:
well-formed instructions at the largest operands. -/
theorem test_hyp_wf :
    (Instr.madd2 0xFF 0xFF 0xFF 0xFF).wf State.reset.cfg.width = true ∧
    (Instr.madd3 0xFFFFFFFFFFFFFFFF 0xFFFFFFFFFFFFFFFF 0xFFFFFFFFFFFFFFFF 0xFFFFFFFFFFFFFFFF).wf .w64 = true ∧
    (Instr.madd2 0xFF 0xFF 0 0xFF).wf timedState.cfg.width = true ∧ timedState.cfg.latency ≠ 0 := by decide

/-- EncodeOfDecode, StepRunsDecodedRequest: a presented request that decodes. -/
theorem test_hyp_decodes :
    (State.reset.present (pinsOf 33 0x1FFFE0501)).request = some (pinsOf 33 0x1FFFE0501) ∧
    decode State.reset.cfg.width (pinsOf 33 0x1FFFE0501) = .ok (.madd3 0x80 0x02 0xFF 0xFF) := by decide +kernel

/-- OpBitSelectsOperation: a vector for each of its clauses. -/
theorem test_hyp_op_bit :
    (0x00001FFFE : BitVec (txnBits .w8)) &&& 1 = 0 ∧ (0x1FFFFFFFF : BitVec (txnBits .w8)) &&& 1 = 1 := by decide +kernel

/-- DefiniteRequestCompletes, EveryDefiniteRequestIsOneOperation (first clause): definite pins of the right length,
presented to a settled combinational build. -/
theorem test_hyp_definite :
    let s := State.reset.present (pinsOf 33 0x1FE01FFFE)
    s.request = some (pinsOf 33 0x1FE01FFFE) ∧ (pinsOf 33 0x1FE01FFFE).length = txnBits s.cfg.width ∧
    Pin.undriven ∉ pinsOf 33 0x1FE01FFFE ∧ s.cfg.latency = 0 ∧ s.inFlight = [] := by decide +kernel

/-- UndrivenInputFaults, EveryDefiniteRequestIsOneOperation (second clause): one pin of carry_in is not definite. -/
theorem test_hyp_undriven :
    let pins := (pinsOf 33 0x1FE01FFFE).set 32 .undriven
    (State.reset.present pins).request = some pins ∧ pins.length = txnBits State.reset.cfg.width ∧
    Pin.undriven ∈ pins := by decide +kernel

/-- TimedRequestIsInFlight: a request presented to a timed build with a transaction in flight. -/
theorem test_hyp_timed_request :
    let s := timedState.present (pinsOf 33 0x0020005FE)
    s.request = some (pinsOf 33 0x0020005FE) ∧
    decode s.cfg.width (pinsOf 33 0x0020005FE) = .ok (.madd2 0xFF 0x02 0 0x01) ∧ s.cfg.latency ≠ 0 := by decide +kernel

/-- UnsupportedWidthIsRejected: numbers of bits in and out of the list. -/
theorem test_hyp_widths : 24 ∉ [8, 16, 32, 64] ∧ 0 ∉ [8, 16, 32, 64] ∧ 128 ∉ [8, 16, 32, 64] ∧ 64 ∈ [8, 16, 32, 64] := by
  decide

/-- StrategySelection: a build for each clause. -/
theorem test_hyp_strategies :
    ((fastBuild .w64).hasNativeDW = true ∧ (fastBuild .w64).forceFallback = false) ∧
    ¬ ((fallbackBuild .w8).hasNativeDW = true ∧ (fallbackBuild .w8).forceFallback = false) := by decide

/-- NoStepWritesTheBuild, StatementIndexOnlyMovesForward: a step that answers a next state. -/
theorem test_hyp_step_next : ∃ t, step (harness (.li 1 0xFF) []) = .next t := ⟨_, rfl⟩

/-- TimedBuildRefinesUntimed, NothingElseStopsAStep, StepKeepsInv, EveryTransactionCompletes, CompletionDrivesOutputs
(clause where nothing completes), RunningMachineShowsEveryAnswer: a timed state with a transaction in flight satisfies
the invariant. -/
theorem test_hyp_inv : timedState.Inv :=
  ⟨by decide, by decide, by simp [timedState]; decide, by decide, by simp [timedState], by decide, by simp [timedState],
    by decide⟩

/-- CompletionDrivesOutputs (clause where one completes), EveryTransactionCompletes and RunningMachineShowsEveryAnswer with
two in flight, the second with no destination. -/
theorem test_hyp_inv_ready : readyState.Inv :=
  ⟨by decide, by decide, by simp [readyState, timedState]; decide, by decide, by simp [readyState], by decide,
    by simp [readyState, timedState], by decide⟩

/-- CompletionDrivesOutputs: each clause, at the waits where they meet; RunningMachineShowsEveryAnswer: the transactions. -/
theorem test_hyp_completion :
    (∀ q ∈ timedState.inFlight, 1 < q.wait) ∧
    (readyState.inFlight = [] ++ ⟨some ⟨5, 6⟩, ⟨0xFF, 0xFE⟩, 1⟩ :: [⟨none, ⟨0x01, 0x02⟩, 3⟩]) ∧
    (⟨none, ⟨0x01, 0x02⟩, 3⟩ : Pending) ∈ readyState.inFlight ∧ timedState.inFlight ≠ [] := by decide

/-- TimedPortsChangeOnlyAtCompletion: a step of a timed build that completes a transaction, and one that does not. -/
theorem test_hyp_timed_ports :
    readyState.cfg.latency ≠ 0 ∧ timedState.cfg.latency ≠ 0 ∧ (∃ t, step readyState = .next t) ∧
    ∃ t, step timedState = .next t :=
  ⟨by decide, by decide, ⟨_, rfl⟩, _, rfl⟩

/-- TimedBuildRefinesUntimed: a step of each outcome from a timed state (its invariant does not read the program). -/
theorem test_hyp_timed_steps :
    (∃ t, step timedState = .next t) ∧ step { timedState with program := [.mov 1 9] } = .fault .unwrittenCell ∧
    step { timedState with program := [.li 1 0x100] } = .refused .operandTooWide :=
  ⟨⟨_, rfl⟩, rfl, rfl⟩

/-- NothingElseStopsAStep, its clause on a presented request: a state with the invariant and a request. -/
theorem test_hyp_inv_request :
    (State.reset.present (pinsOf 33 0)).Inv ∧ (State.reset.present (pinsOf 33 0)).request = some (pinsOf 33 0) :=
  ⟨⟨by decide, by decide, by simp [State.reset], by decide, by decide, by decide,
    by simp [State.reset, Config.reference, txnBits, Width.bits], fun _ => rfl⟩, rfl⟩

/-- StepKeepsInv: a state with the invariant whose step answers a next state. -/
theorem test_hyp_inv_step : State.reset.Inv ∧ ∃ t, step State.reset = .next t :=
  ⟨⟨by decide, by decide, by simp [State.reset], by decide, by decide, by decide, by simp [State.reset], fun _ => rfl⟩,
    _, rfl⟩

/-- LiWritesItsCell. -/
theorem test_hyp_li :
    let s := harness (.li 1 0xFF) [(1, 0)]
    s.request = none ∧ s.inFlight = [] ∧ s.program[s.pc]? = some (.li 1 0xFF) ∧ Word.Fits s.cfg.width.bits 0xFF := by
  decide

/-- MovCopiesACell, both clauses. -/
theorem test_hyp_mov :
    let s := harness (.mov 1 2) [(2, 0xFE)]
    let u := harness (.mov 1 2) []
    s.request = none ∧ s.inFlight = [] ∧ s.program[s.pc]? = some (.mov 1 2) ∧ s.readCell 2 = some 0xFE ∧
    u.request = none ∧ u.inFlight = [] ∧ u.program[u.pc]? = some (.mov 1 2) ∧ u.readCell 2 = none := by decide

/-- UnwrittenCellFaults: the carry cell of F2. -/
theorem test_hyp_unwritten :
    let st := Stmt.madd2 1 (.imm 1) (.imm 1) 0
    let s := harness st []
    s.request = none ∧ s.program[s.pc]? = some st ∧ held (tick s) st = false ∧ st.fits s.cfg.width = true ∧
    st.writes.Nodup ∧ 0 ∈ st.reads ∧ (tick s).readCell 0 = none := by decide

/-- DestEqualsCarryFaults: F3, and its MADD3 form. -/
theorem test_hyp_dest :
    let st := Stmt.madd2 0 (.imm 1) (.imm 1) 0
    let st' := Stmt.madd3 0 (.imm 1) (.imm 1) (.imm 1) 0
    let s := harness st [(0, 0)]
    let s' := harness st' [(0, 0)]
    s.request = none ∧ s.program[s.pc]? = some st ∧ held (tick s) st = false ∧ st.fits s.cfg.width = true ∧
    s'.request = none ∧ s'.program[s'.pc]? = some st' ∧ held (tick s') st' = false ∧ st'.fits s'.cfg.width = true := by
  decide

/-- NothingElseStopsAStep: a statement that is held, and one that is not and may run. -/
theorem test_hyp_nothing_else :
    let st := Stmt.mov 1 6
    let s := { timedState with program := [st] }
    s.request = none ∧ s.program[s.pc]? = some st ∧ held (tick s) st = true ∧ held (tick s) (.mov 2 1) = false := by decide

/-- NothingToDoChangesNothing. -/
theorem test_hyp_nothing_to_do :
    State.reset.request = none ∧ State.reset.program[State.reset.pc]? = none ∧ State.reset.inFlight = [] := by decide

/-- OwnedCellHoldsTheStatement: the statement reads the carry cell of a transaction in flight. -/
theorem test_hyp_owned :
    let st := Stmt.madd2 1 (.imm 1) (.imm 1) 6
    let s := { timedState with program := [st] }
    s.request = none ∧ s.program[s.pc]? = some st ∧ 6 ∈ st.reads ++ st.writes ∧ ownedIn (tick s).inFlight 6 = true := by
  decide

/-- IndependentStatementsCommute: two statements with no cell in common, each of which runs. -/
theorem test_hyp_independent :
    State.reset.cfg.latency = 0 ∧ independent (.li 1 0xFF) (.li 2 0xFE) = true ∧
    ∃ t u, runStmt (.li 1 0xFF) State.reset = .next t ∧ runStmt (.li 2 0xFE) t = .next u :=
  ⟨rfl, by decide, _, _, rfl, rfl⟩

end Sys2Proof.Tests
end

section
/-! PROOFS. MADD2 and its ignored `addend` port (spec/10_state.md R24). -/

namespace Sys2Proof.Machine

/-- The outputs of MADD2 do not read the addend (spec/10_state.md R24). -/
theorem respond_madd2_addend (c : Config) (a b x y carryIn : Word) :
    respond c (.madd2 a b x carryIn) = respond c (.madd2 a b y carryIn) := rfl

/-- Whether MADD2 is well-formed depends on the addend only in that it is a Word. -/
theorem wf_madd2_addend {W : Width} {x y : Word} (hx : x.Fits W.bits) (hy : y.Fits W.bits) (a b carryIn : Word) :
    (Instr.madd2 a b x carryIn).wf W = (Instr.madd2 a b y carryIn).wf W := by
  rw [Bool.eq_iff_iff]
  simp only [Instr.wf, operandsFit_iff, hx, hy]

theorem exec_madd2_addend {s : State} {x y : Word} (hx : x.Fits s.cfg.width.bits) (hy : y.Fits s.cfg.width.bits)
    (a b carryIn : Word) : exec (.madd2 a b x carryIn) s = exec (.madd2 a b y carryIn) s := by
  rw [exec_eq, exec_eq, wf_madd2_addend hx hy, respond_madd2_addend s.cfg a b x y]

/-- A harness MADD2 whose cells are apart and whose operands are readable issues its request, with the addend driven
to 0 (spec/30_encoding.md R67, spec/10_state.md R24). -/
theorem runMadd2_of_readable {s : State} {rd rk : CellName} {ra rb : Operand} {a b carryIn : Word} (hne : rd ≠ rk)
    (ha : readOperand s ra = some a) (hb : readOperand s rb = some b) (hk : s.readCell rk = some carryIn) :
    runMadd2 rd ra rb rk s = issue rd rk (.madd2 a b 0 carryIn) s := by
  simp only [runMadd2, if_neg hne, ha, hb, hk]

/-- Settles O10: an addend that is a Word plays no part in well-formedness or in the response, and the harness
statement's two checks pass. -/
theorem madd2IgnoresAddend : Obligations.Madd2IgnoresAddend :=
  ⟨fun _ a b _ _ carryIn hx hy => exec_madd2_addend hx hy a b carryIn,
   fun _ _ _ _ _ _ _ _ hne ha hb hk => runMadd2_of_readable hne ha hb hk⟩

end Sys2Proof.Machine
end

section
/-! PROOFS. The frame and the idempotence of a transaction (spec/20_memory.md R44). -/

namespace Sys2Proof.Machine

open State

/-- The request of any instruction is laid out on all the build's input pins (spec/30_encoding.md R60, R65). -/
@[simp] theorem length_encode (W : Width) (i : Instr) : (encode W i).length = txnBits W := length_pinsOf _ _

/-- What the output ports already show is no input of a transaction, and is replaced by its outputs
(spec/10_state.md R20). -/
theorem exec_driveOutputs {i : Instr} {s : State} (h : i.wf s.cfg.width = true) (r : Response) :
    exec i (s.driveOutputs r) = .next (s.driveOutputs (respond s.cfg i)) := exec_of_wf h

/-- A transaction executed again on the state it left leaves that state. -/
theorem exec_idempotent {i : Instr} {s t : State} (h : exec i s = .next t) : exec i t = .next t := by
  obtain ⟨hwf, rfl⟩ := exec_next_inv h
  exact exec_driveOutputs hwf _

/-- Settles O11: a transaction that completes has driven its response on the output ports (`exec_next_inv`), which
touches no other field and is no input of the transaction itself. -/
theorem transactionChangesOnlyItsOutputs : Obligations.TransactionChangesOnlyItsOutputs := by
  intro i s t h
  have hagain : exec i t = .next t := exec_idempotent h
  have hlength : (encode s.cfg.width i).length = 1 + 4 * s.cfg.width.bits :=
    (length_encode _ i).trans (Nat.add_comm _ _)
  obtain ⟨-, rfl⟩ := exec_next_inv h
  exact ⟨driveOutputs_cfg .., driveOutputs_request .., readCell_driveOutputs s _, driveOutputs_cells ..,
    driveOutputs_program .., driveOutputs_pc .., driveOutputs_inFlight .., driveOutputs_waitsDrawn ..,
    ⟨_, driveOutputs_rsp .., respond_fits s.cfg i⟩, hlength, hagain⟩

end Sys2Proof.Machine
end

section
/-! PROOFS. The operation a request vector selects (spec/30_encoding.md R62). -/

namespace Sys2Proof

/-- `v & 1` is bit 0 of the vector, at every width. -/
theorem and_one_eq_ite_getLsbD {w : Nat} (v : BitVec w) : v &&& 1 = if v.getLsbD 0 then 1 else 0 := by
  change v &&& 1#w = _
  rw [BitVec.and_one_eq_setWidth_ofBool_getLsbD]
  cases v.getLsbD 0 with
  | false => simp
  | true => exact BitVec.eq_of_toNat_eq (by simp)

/-- In a request, which has a bit 0, `v & 1 = 0` is bit 0 clear. -/
theorem and_one_eq_zero_iff {W : Width} (v : BitVec (txnBits W)) : v &&& 1 = 0 ↔ v.getLsbD 0 = false := by
  rw [and_one_eq_ite_getLsbD]
  cases v.getLsbD 0 <;> simp [txnBits]

/-- In a request, which has a bit 0, `v & 1 = 1` is bit 0 set. -/
theorem and_one_eq_one_iff {W : Width} (v : BitVec (txnBits W)) : v &&& 1 = 1 ↔ v.getLsbD 0 = true := by
  rw [and_one_eq_ite_getLsbD]
  cases v.getLsbD 0 <;> simp [txnBits]

/-- A request with bit 0 clear is MADD2 on its four fields (spec/30_encoding.md R60, R62). -/
theorem decodeTxn_of_bit_clear {W : Width} {v : BitVec (txnBits W)} (h : v.getLsbD 0 = false) :
    decodeTxn W v = .madd2 (txnField W v 1) (txnField W v (W.bits + 1)) (txnField W v (2 * W.bits + 1))
      (txnField W v (3 * W.bits + 1)) := by
  simp [decodeTxn, h]

/-- A request with bit 0 set is MADD3 on its four fields (spec/30_encoding.md R60, R62). -/
theorem decodeTxn_of_bit_set {W : Width} {v : BitVec (txnBits W)} (h : v.getLsbD 0 = true) :
    decodeTxn W v = .madd3 (txnField W v 1) (txnField W v (W.bits + 1)) (txnField W v (2 * W.bits + 1))
      (txnField W v (3 * W.bits + 1)) := by
  simp [decodeTxn, h]

/-- Settles O16: `v & 1` is bit 0, the one bit on which the decoder chooses the operation. -/
theorem opBitSelectsOperation : Obligations.OpBitSelectsOperation := by
  intro W v
  rw [and_one_eq_zero_iff, and_one_eq_one_iff]
  exact ⟨fun h => ⟨_, _, _, _, decodeTxn_of_bit_clear h⟩, fun h => ⟨_, _, _, _, decodeTxn_of_bit_set h⟩,
    (Bool.eq_false_or_eq_true _).symm⟩

end Sys2Proof
end

section
/-! PROOFS. The layout of a request: the value of the packed vector, and the fields a vector decodes to
(spec/30_encoding.md R60). -/

namespace Sys2Proof

open Sys2Proof.Machine

/-- A field of `m` bits put above one of `k` bits stays below `2^(k + m)`. -/
theorem add_mul_two_pow_lt {k m e x y : Nat} (he : k + m = e) (hx : x < 2 ^ k) (hy : y < 2 ^ m) :
    x + y * 2 ^ k < 2 ^ e := by
  have hdiv : (x + y * 2 ^ k) / 2 ^ k = y := by
    rw [Nat.add_mul_div_right _ _ (Nat.two_pow_pos k), Nat.div_eq_of_lt hx, Nat.zero_add]
  rw [← he, Nat.add_comm k m, Nat.pow_add]
  exact Nat.lt_mul_of_div_lt (hdiv.trans_lt hy) (Nat.two_pow_pos k)

/-- The value of a request is the formula of R60 over the plain operand values: nothing is cut off, since each field
fits in the bits below the next. -/
theorem toNat_packTxn {W : Width} {op : Nat} {a b addend carryIn : Word} (hop : op < 2 ^ 1) (ha : a.Fits W.bits)
    (hb : b.Fits W.bits) (hc : addend.Fits W.bits) (hk : carryIn.Fits W.bits) :
    (packTxn W op a b addend carryIn).toNat =
      op + a.toNat * 2 + b.toNat * 2 ^ (W.bits + 1) + addend.toNat * 2 ^ (2 * W.bits + 1) +
        carryIn.toNat * 2 ^ (3 * W.bits + 1) := by
  have h1 : op + a.toNat * 2 ^ 1 < 2 ^ (W.bits + 1) := add_mul_two_pow_lt (Nat.add_comm ..) hop ha
  have h2 := add_mul_two_pow_lt (e := 2 * W.bits + 1) (by omega) h1 hb
  have h3 := add_mul_two_pow_lt (e := 3 * W.bits + 1) (by omega) h2 hc
  have h4 := add_mul_two_pow_lt (e := txnBits W) (by unfold txnBits; omega) h3 hk
  rw [packTxn, toNat_portBits ha, toNat_portBits hb, toNat_portBits hc, toNat_portBits hk, BitVec.toNat_ofNat]
  exact Nat.mod_eq_of_lt h4

/-- An operand field of a request is a Word exactly when the Word's value is that of the slice (R60, R63). -/
theorem txnField_eq_iff {W : Width} {v : BitVec (txnBits W)} {lo : Nat} {x : Word} :
    txnField W v lo = x ↔ x.toNat = (v.extractLsb' lo W.bits).toNat := by
  rw [← BitVec.toNat_inj, txnField, toNat_ofPortBits, eq_comm]

/-- A request decodes to given operands, under one operation or the other, exactly when its fields are these. -/
theorem decodeTxn_operands_iff {W : Width} {v : BitVec (txnBits W)} {a b addend carryIn : Word} :
    (decodeTxn W v = .madd2 a b addend carryIn ∨ decodeTxn W v = .madd3 a b addend carryIn) ↔
      txnField W v 1 = a ∧ txnField W v (W.bits + 1) = b ∧ txnField W v (2 * W.bits + 1) = addend ∧
      txnField W v (3 * W.bits + 1) = carryIn := by
  cases h : v.getLsbD 0 with
  | false => simp [decodeTxn_of_bit_clear h]
  | true => simp [decodeTxn_of_bit_set h]

/-- Settles O17: the packed value is not cut off (`toNat_packTxn`), and decoding reads the four slices whichever the
operation. -/
theorem requestLayout : Obligations.RequestLayout := by
  intro W a b addend carryIn n ha hb hc hk
  refine ⟨rfl, toNat_packTxn Nat.zero_lt_two ha hb hc hk, toNat_packTxn Nat.one_lt_two ha hb hc hk, fun v => ?_⟩
  simp only [decodeTxn_operands_iff, txnField_eq_iff, n]

end Sys2Proof
end

section
/-! PROOFS. The request words the spec writes out, by evaluation of the decoder, the encoder and the datapath
(spec/30_encoding.md R69, spec/95_test_vectors.md X5, X8, X9). -/

namespace Sys2Proof

open Sys2Proof.Machine

/-- Settles O20, clause by clause. -/
theorem writtenOutRequestsDecode : Obligations.WrittenOutRequestsDecode := by
  refine ⟨?decode_r69, ?encode_r69, ?response_vector_r69, ?outputs_r69, ?decode_x5, ?decode_x8, ?decode_x9⟩ <;>
    decide +kernel

end Sys2Proof
end

section
/-! PROOFS. The adders of the two strategies: what a wrapped add and its detected overflow hold together, and that a
stage that fits in two words loses nothing (spec/41_datapath.md R102, R104, R107, R109, R110). -/

namespace Sys2Proof.Machine

/-- The number that a datapath's two halves `(lo, hi)` hold: `hi * 2^W + lo`. -/
def doubleValue {w : Nat} (p : BitVec w × BitVec w) : Nat := p.2.toNat * 2 ^ w + p.1.toNat

section Adders
variable {w : Nat}

/-- A product of two Words with two Words added fits in two words (spec/40_word_multiply_add.md R84). -/
theorem mul_add_add_lt_two_pow {a b c d : Nat} (ha : a < 2 ^ w) (hb : b < 2 ^ w) (hc : c < 2 ^ w) (hd : d < 2 ^ w) :
    a * b + c + d < 2 ^ (2 * w) := by
  obtain ⟨m, hm⟩ : ∃ m, 2 ^ w = m + 1 := Nat.exists_eq_succ_of_ne_zero (Nat.two_pow_pos w).ne'
  rw [hm] at ha hb hc hd
  have hab : a * b ≤ m * m := Nat.mul_le_mul (Nat.le_of_lt_succ ha) (Nat.le_of_lt_succ hb)
  have hsq : 2 ^ (2 * w) = m * m + 2 * m + 1 := by rw [Nat.mul_comm, Nat.pow_mul, hm]; ring
  omega

/-- The detected overflow of a wrapped add is set exactly when the add wraps (R107). -/
theorem addOverflow_add_iff (x t : BitVec w) : addOverflow (x + t) t = true ↔ 2 ^ w ≤ x.toNat + t.toNat := by
  have hx := x.isLt
  rw [addOverflow, decide_eq_true_iff, BitVec.toNat_add]
  rcases Nat.lt_or_ge (x.toNat + t.toNat) (2 ^ w) with h | h
  · rw [Nat.mod_eq_of_lt h]; omega
  · rw [Nat.mod_eq_sub_mod h, Nat.mod_eq_of_lt (by omega)]; omega

/-- The overflow word is the carry out of the add (R107). -/
theorem toNat_overflowWord_add (x t : BitVec w) :
    (overflowWord (x + t) t).toNat = (x.toNat + t.toNat) / 2 ^ w := by
  have hx := x.isLt
  have ht := t.isLt
  unfold overflowWord
  split
  · rename_i h
    have hwrap := (addOverflow_add_iff x t).mp h
    have hone : 1 < 2 ^ w := by omega
    rw [BitVec.toNat_ofNat, Nat.mod_eq_of_lt hone, Nat.div_eq_of_lt_le] <;> omega
  · rename_i h
    have hfits := Nat.lt_of_not_le (mt (addOverflow_add_iff x t).mpr h)
    rw [Nat.div_eq_of_lt hfits, BitVec.toNat_ofNat, Nat.zero_mod]

/-- A wrapped add and its overflow word together are the exact sum (R107). -/
theorem overflowWord_mul_add_toNat_add (x t : BitVec w) :
    (overflowWord (x + t) t).toNat * 2 ^ w + (x + t).toNat = x.toNat + t.toNat := by
  rw [toNat_overflowWord_add, BitVec.toNat_add, Nat.div_add_mod']

/-- The increment of the high word has no carry out when the sum fits in two words (R109). -/
theorem toNat_addStage_high {t : BitVec w} {p : BitVec w × BitVec w} (h : doubleValue p + t.toNat < 2 ^ (2 * w)) :
    (addStage t p).2.toNat = p.2.toNat + (overflowWord (p.1 + t) t).toNat := by
  refine BitVec.toNat_add_of_lt (Nat.lt_of_mul_lt_mul_right (a := 2 ^ w) ?_)
  have hlow := overflowWord_mul_add_toNat_add p.1 t
  rw [Nat.two_mul, Nat.pow_add, doubleValue] at h
  rw [Nat.add_mul]
  omega

/-- A fallback stage whose sum fits in two words adds its term exactly (R109). -/
theorem doubleValue_addStage {t : BitVec w} {p : BitVec w × BitVec w} (h : doubleValue p + t.toNat < 2 ^ (2 * w)) :
    doubleValue (addStage t p) = doubleValue p + t.toNat := by
  have hlow := overflowWord_mul_add_toNat_add p.1 t
  have hhigh := toNat_addStage_high h
  have hfst : (addStage t p).1 = p.1 + t := rfl
  rw [doubleValue, hhigh, hfst, doubleValue, Nat.add_mul]
  omega

/-- A port's Word zero-extended to two words keeps its value. -/
theorem toNat_setWidth_double (x : BitVec w) : (x.setWidth (2 * w)).toNat = x.toNat :=
  BitVec.toNat_setWidth_of_le (by omega)

/-- The double-width product is exact (R110). -/
theorem toNat_wideProduct (a b : BitVec w) : (wideProduct a b).toNat = a.toNat * b.toNat := by
  have hlt : a.toNat * b.toNat < 2 ^ (2 * w) := Nat.mul_comm w 2 ▸ BitVec.toNat_mul_toNat_lt
  rw [wideProduct, BitVec.toNat_mul, toNat_setWidth_double, toNat_setWidth_double, Nat.mod_eq_of_lt hlt]

/-- One term added in double width, with no carry dropped (R110). -/
theorem toNat_fastTree1 {P : BitVec (2 * w)} {carryIn : BitVec w} (h : P.toNat + carryIn.toNat < 2 ^ (2 * w)) :
    (fastTree1 P carryIn).toNat = P.toNat + carryIn.toNat := by
  rw [fastTree1, BitVec.toNat_add, toNat_setWidth_double, Nat.mod_eq_of_lt h]

/-- Two terms added in double width are the two one-term adds (R102). -/
theorem fastTree2_eq (P : BitVec (2 * w)) (addend carryIn : BitVec w) :
    fastTree2 P addend carryIn = fastTree1 (fastTree1 P addend) carryIn := rfl

/-- Two terms added in double width, with no carry dropped (R110). -/
theorem toNat_fastTree2 {P : BitVec (2 * w)} {addend carryIn : BitVec w}
    (h : P.toNat + addend.toNat + carryIn.toNat < 2 ^ (2 * w)) :
    (fastTree2 P addend carryIn).toNat = P.toNat + addend.toNat + carryIn.toNat := by
  have hfirst : (fastTree1 P addend).toNat = P.toNat + addend.toNat := toNat_fastTree1 (Nat.lt_of_le_of_lt (by omega) h)
  rw [fastTree2_eq, toNat_fastTree1 (hfirst ▸ h), hfirst]

/-- Shifting and masking a double-width value into halves loses nothing (R102). -/
theorem doubleValue_splitDouble (S : BitVec (2 * w)) : doubleValue (splitDouble S) = S.toNat := by
  have hhigh : S.toNat / 2 ^ w < 2 ^ w := by
    rw [Nat.div_lt_iff_lt_mul (Nat.two_pow_pos w), ← Nat.pow_add, ← Nat.two_mul]
    exact S.isLt
  simp only [doubleValue, splitDouble, BitVec.extractLsb'_toNat, Nat.shiftRight_eq_div_pow, Nat.pow_zero,
    Nat.div_one, Nat.mod_eq_of_lt hhigh, Nat.div_add_mod']

end Adders

end Sys2Proof.Machine
end

section
/-! PROOFS. The limb decomposition, register by register, at every even width `2h` (spec/41_datapath.md R111, R112). -/

namespace Sys2Proof.Machine

section Limbs
variable {h : Nat}

theorem two_pow_double (h : Nat) : 2 ^ (2 * h) = 2 ^ h * 2 ^ h := by rw [Nat.two_mul, Nat.pow_add]

theorem toNat_highHalf (x : BitVec (2 * h)) : (highHalf x).toNat = x.toNat / 2 ^ h := by
  rw [highHalf, BitVec.toNat_ushiftRight, Nat.shiftRight_eq_div_pow, Nat.mul_div_cancel_left h Nat.two_pos]

theorem toNat_lowHalf (x : BitVec (2 * h)) : (lowHalf x).toNat = x.toNat % 2 ^ h := by
  rw [lowHalf, BitVec.toNat_setWidth_of_le (by omega), BitVec.toNat_setWidth, Nat.mul_div_cancel_left h Nat.two_pos]

theorem highHalf_lt (x : BitVec (2 * h)) : (highHalf x).toNat < 2 ^ h := by
  rw [toNat_highHalf, Nat.div_lt_iff_lt_mul (Nat.two_pow_pos h), ← two_pow_double]
  exact x.isLt

theorem lowHalf_lt (x : BitVec (2 * h)) : (lowHalf x).toNat < 2 ^ h := by
  rw [toNat_lowHalf]
  exact Nat.mod_lt _ (Nat.two_pow_pos h)

/-- A register is its two halves. -/
theorem highHalf_mul_add_lowHalf (x : BitVec (2 * h)) :
    (highHalf x).toNat * 2 ^ h + (lowHalf x).toNat = x.toNat := by
  rw [toNat_highHalf, toNat_lowHalf, Nat.div_add_mod']

/-- A half-by-half product is exact in a register. -/
theorem toNat_mul_of_halves {x y : BitVec (2 * h)} (hx : x.toNat < 2 ^ h) (hy : y.toNat < 2 ^ h) :
    (x * y).toNat = x.toNat * y.toNat :=
  BitVec.toNat_mul_of_lt (two_pow_double h ▸ Nat.mul_lt_mul'' hx hy)

/-- A shift up by half a register that stays in the register is a product by `2^h`. -/
theorem toNat_shiftLeft_half {x : BitVec (2 * h)} (hx : x.toNat * 2 ^ h < 2 ^ (2 * h)) :
    (x <<< (2 * h / 2)).toNat = x.toNat * 2 ^ h := by
  rw [BitVec.toNat_shiftLeft, Nat.shiftLeft_eq, Nat.mul_div_cancel_left h Nat.two_pos, Nat.mod_eq_of_lt hx]

variable (a b : BitVec (2 * h))

theorem toNat_limb_x0 : (limbSteps a b).x0.toNat = (highHalf a).toNat * (highHalf b).toNat :=
  toNat_mul_of_halves (highHalf_lt a) (highHalf_lt b)

theorem toNat_limb_x1 : (limbSteps a b).x1.toNat = (lowHalf a).toNat * (highHalf b).toNat :=
  toNat_mul_of_halves (lowHalf_lt a) (highHalf_lt b)

theorem toNat_limb_x2 : (limbSteps a b).x2.toNat = (highHalf a).toNat * (lowHalf b).toNat :=
  toNat_mul_of_halves (highHalf_lt a) (lowHalf_lt b)

theorem toNat_limb_x3 : (limbSteps a b).x3.toNat = (lowHalf a).toNat * (lowHalf b).toNat :=
  toNat_mul_of_halves (lowHalf_lt a) (lowHalf_lt b)

/-- The partial products make up the product. -/
theorem limb_partial_products :
    a.toNat * b.toNat = (limbSteps a b).x0.toNat * 2 ^ (2 * h) +
      ((limbSteps a b).x1.toNat + (limbSteps a b).x2.toNat) * 2 ^ h + (limbSteps a b).x3.toNat := by
  rw [toNat_limb_x0, toNat_limb_x1, toNat_limb_x2, toNat_limb_x3, two_pow_double, ← highHalf_mul_add_lowHalf a,
    ← highHalf_mul_add_lowHalf b]
  ring

/-- The first middle add does not wrap. -/
theorem limb_x2_add_lt : (limbSteps a b).x2.toNat + (limbSteps a b).x3.toNat / 2 ^ h < 2 ^ (2 * h) := by
  have hx3 := highHalf_lt (limbSteps a b).x3
  rw [toNat_highHalf] at hx3
  rw [toNat_limb_x2]
  exact mul_add_add_lt_two_pow (highHalf_lt a) (lowHalf_lt b) hx3 (Nat.two_pow_pos h)

theorem toNat_limb_x2Mid :
    (limbSteps a b).x2Mid.toNat = (limbSteps a b).x2.toNat + (limbSteps a b).x3.toNat / 2 ^ h := by
  rw [← toNat_highHalf]
  exact BitVec.toNat_add_of_lt (by rw [toNat_highHalf]; exact limb_x2_add_lt a b)

/-- The wrapped middle sum and its carry hold the middle sum. -/
theorem limb_middle_sum :
    (limbSteps a b).x1.toNat + (limbSteps a b).x2.toNat + (limbSteps a b).x3.toNat / 2 ^ h =
      (limbSteps a b).x2Final.toNat + (limbSteps a b).cy.toNat * 2 ^ (2 * h) := by
  have hsum : (limbSteps a b).cy.toNat * 2 ^ (2 * h) + (limbSteps a b).x2Final.toNat =
      (limbSteps a b).x2Mid.toNat + (limbSteps a b).x1.toNat :=
    overflowWord_mul_add_toNat_add (limbSteps a b).x2Mid (limbSteps a b).x1
  rw [toNat_limb_x2Mid] at hsum
  omega

/-- The product regrouped at bit `2h`: the high part as the last two adds form it, above two low limbs. -/
theorem limb_regrouped_product :
    a.toNat * b.toNat =
      ((limbSteps a b).x0.toNat + (limbSteps a b).cy.toNat * 2 ^ h + (limbSteps a b).x2Final.toNat / 2 ^ h) *
          2 ^ (2 * h) +
        ((limbSteps a b).x2Final.toNat % 2 ^ h * 2 ^ h + (limbSteps a b).x3.toNat % 2 ^ h) := by
  have hx3 := Nat.div_add_mod' (limbSteps a b).x3.toNat (2 ^ h)
  have hx2 := Nat.div_add_mod' (limbSteps a b).x2Final.toNat (2 ^ h)
  have hmid := limb_middle_sum a b
  rw [two_pow_double] at hmid
  rw [limb_partial_products, two_pow_double]
  linear_combination (2 ^ h) * hmid + hx3.symm + (2 ^ h) * hx2.symm

/-- The high part fits in a register, since the product fits in two. -/
theorem limb_high_lt :
    (limbSteps a b).x0.toNat + (limbSteps a b).cy.toNat * 2 ^ h + (limbSteps a b).x2Final.toNat / 2 ^ h <
      2 ^ (2 * h) := by
  refine Nat.lt_of_mul_lt_mul_right (a := 2 ^ (2 * h)) (Nat.lt_of_le_of_lt ?_ (Nat.mul_lt_mul'' a.isLt b.isLt))
  rw [limb_regrouped_product a b]
  exact Nat.le_add_right ..

theorem toNat_limb_x0Final :
    (limbSteps a b).x0Final.toNat = (limbSteps a b).x0.toNat + (limbSteps a b).cy.toNat * 2 ^ h := by
  have hlt := Nat.lt_of_le_of_lt (Nat.le_add_right ..) (limb_high_lt a b)
  have hshift := toNat_shiftLeft_half (Nat.lt_of_le_of_lt (Nat.le_add_left ..) hlt)
  rw [← hshift] at hlt ⊢
  exact BitVec.toNat_add_of_lt hlt

theorem toNat_limb_ph :
    (limbSteps a b).ph.toNat =
      (limbSteps a b).x0.toNat + (limbSteps a b).cy.toNat * 2 ^ h + (limbSteps a b).x2Final.toNat / 2 ^ h := by
  have hlt := limb_high_lt a b
  rw [← toNat_limb_x0Final, ← toNat_highHalf] at hlt ⊢
  exact BitVec.toNat_add_of_lt hlt

theorem toNat_limb_pl :
    (limbSteps a b).pl.toNat = (limbSteps a b).x2Final.toNat % 2 ^ h * 2 ^ h + (limbSteps a b).x3.toNat % 2 ^ h := by
  have hlt := add_mul_two_pow_lt (Nat.two_mul h).symm (lowHalf_lt (limbSteps a b).x3)
    (lowHalf_lt (limbSteps a b).x2Final)
  rw [Nat.add_comm] at hlt
  have hshift := toNat_shiftLeft_half (Nat.lt_of_le_of_lt (Nat.le_add_right ..) hlt)
  rw [← toNat_lowHalf, ← toNat_lowHalf, ← hshift]
  rw [← hshift] at hlt
  exact BitVec.toNat_add_of_lt hlt

/-- The two halves of the limb decomposition are the exact product (R112). -/
theorem limb_product :
    (limbSteps a b).ph.toNat * 2 ^ (2 * h) + (limbSteps a b).pl.toNat = a.toNat * b.toNat := by
  rw [toNat_limb_ph, toNat_limb_pl, ← limb_regrouped_product]

end Limbs

/-- The split product is exact, whichever way it is formed, at every even width (R103). -/
theorem doubleValue_splitMul {w : Nat} (hw : w = 2 * (w / 2)) (impl : SplitMulImpl) (a b : BitVec w) :
    doubleValue (splitMul impl a b) = a.toNat * b.toNat := by
  cases impl with
  | hwMul => exact (doubleValue_splitDouble _).trans (toNat_wideProduct a b)
  | limbDecomp =>
    generalize w / 2 = h at hw
    subst hw
    exact limb_product a b

end Sys2Proof.Machine
end

section
/-! PROOFS. The response of the block is the exact sum, on either strategy, and so is its response vector
(spec/30_encoding.md R61, spec/41_datapath.md R113). -/

namespace Sys2Proof.Machine

/-- The datapath of MADD2 gives the exact sum (spec/40_word_multiply_add.md R80). -/
theorem doubleValue_datapathMadd2 (c : Config) {w : Nat} (hw : w = 2 * (w / 2)) (a b carryIn : BitVec w) :
    doubleValue (datapathMadd2 c a b carryIn) = a.toNat * b.toNat + carryIn.toNat := by
  have hlt := mul_add_add_lt_two_pow a.isLt b.isLt carryIn.isLt (Nat.two_pow_pos w)
  unfold datapathMadd2
  cases c.strategy with
  | fast =>
    have hP := toNat_wideProduct a b
    exact (doubleValue_splitDouble _).trans ((toNat_fastTree1 (hP.symm ▸ hlt)).trans (by rw [hP]))
  | fallback =>
    have hp := doubleValue_splitMul hw c.splitMulImpl a b
    exact (doubleValue_addStage (hp.symm ▸ hlt)).trans (by rw [hp])

/-- The datapath of MADD3 gives the exact sum (spec/40_word_multiply_add.md R81). -/
theorem doubleValue_datapathMadd3 (c : Config) {w : Nat} (hw : w = 2 * (w / 2)) (a b addend carryIn : BitVec w) :
    doubleValue (datapathMadd3 c a b addend carryIn) = a.toNat * b.toNat + addend.toNat + carryIn.toNat := by
  have hlt := mul_add_add_lt_two_pow a.isLt b.isLt addend.isLt carryIn.isLt
  unfold datapathMadd3
  cases c.strategy with
  | fast =>
    have hP := toNat_wideProduct a b
    exact (doubleValue_splitDouble _).trans ((toNat_fastTree2 (hP.symm ▸ hlt)).trans (by rw [hP]))
  | fallback =>
    have hp := doubleValue_splitMul hw c.splitMulImpl a b
    have hfirst : doubleValue (addStage addend (splitMul c.splitMulImpl a b)) = a.toNat * b.toNat + addend.toNat :=
      (doubleValue_addStage (hp.symm ▸ Nat.lt_of_le_of_lt (Nat.le_add_right ..) hlt)).trans (by rw [hp])
    exact (doubleValue_addStage (hfirst.symm ▸ hlt)).trans (by rw [hfirst])

/-- The two output ports show the number the datapath's halves hold. -/
theorem responseOf_value (W : Width) (p : BitVec W.bits × BitVec W.bits) :
    (responseOf W p).carryOut.toNat * 2 ^ W.bits + (responseOf W p).lo.toNat = doubleValue p := by
  simp [responseOf, doubleValue]

/-- The outputs of a well-formed transaction hold its exact sum, in every build (R113). -/
theorem respond_value {c : Config} {i : Instr} (h : i.wf c.width = true) :
    (respond c i).carryOut.toNat * 2 ^ c.width.bits + (respond c i).lo.toNat = exactSum i := by
  cases i with
  | madd2 a b addend carryIn =>
    obtain ⟨ha, hb, -, hk⟩ := (operandsFit_iff ..).mp h
    refine (responseOf_value _ _).trans ((doubleValue_datapathMadd2 c (width_even _) _ _ _).trans ?_)
    rw [toNat_portBits ha, toNat_portBits hb, toNat_portBits hk, exactSum]
  | madd3 a b addend carryIn =>
    obtain ⟨ha, hb, hc, hk⟩ := (operandsFit_iff ..).mp h
    refine (responseOf_value _ _).trans ((doubleValue_datapathMadd3 c (width_even _) _ _ _ _).trans ?_)
    rw [toNat_portBits ha, toNat_portBits hb, toNat_portBits hc, toNat_portBits hk, exactSum]

/-- The response vector of two Words is `carry_out` above `lo` (R61). -/
theorem toNat_encodeResponse {W : Width} {r : Response} (h : r.Fits W) :
    (encodeResponse W r.lo r.carryOut).toNat = r.carryOut.toNat * 2 ^ W.bits + r.lo.toNat := by
  obtain ⟨hlo, hcarry⟩ := h
  have hlt := add_mul_two_pow_lt (Nat.two_mul W.bits).symm hlo hcarry
  rw [encodeResponse, toNat_portBits hlo, toNat_portBits hcarry, BitVec.toNat_ofNat]
  exact Nat.mod_eq_of_lt (by omega)

/-- Bits `[W-1:0]` of the response vector are `lo` (R61). -/
theorem encodeResponse_low {W : Width} {r : Response} (h : r.Fits W) :
    ((encodeResponse W r.lo r.carryOut).extractLsb' 0 W.bits).toNat = r.lo.toNat := by
  rw [BitVec.extractLsb'_toNat, toNat_encodeResponse h, Nat.shiftRight_zero, Nat.mul_add_mod_self_right]
  exact Nat.mod_eq_of_lt h.1

/-- Bits `[2W-1:W]` of the response vector are `carry_out` (R61). -/
theorem encodeResponse_high {W : Width} {r : Response} (h : r.Fits W) :
    ((encodeResponse W r.lo r.carryOut).extractLsb' W.bits W.bits).toNat = r.carryOut.toNat := by
  rw [BitVec.extractLsb'_toNat, toNat_encodeResponse h, Nat.shiftRight_eq_div_pow, Nat.add_comm,
    Nat.add_mul_div_right _ _ (Nat.two_pow_pos _), Nat.div_eq_of_lt h.1, Nat.zero_add]
  exact Nat.mod_eq_of_lt h.2

/-- Settles O19: a well-formed transaction drives its response, which fits, so that the vector is its two outputs and
they hold the exact sum (`respond_value`). -/
theorem responseVectorIsExactSum : Obligations.ResponseVectorIsExactSum := by
  intro s i hwf
  have hfits := respond_fits s.cfg i
  exact ⟨respond s.cfg i, exec_of_wf hwf, encodeResponse_low hfits, encodeResponse_high hfits,
    (toNat_encodeResponse hfits).trans (respond_value hwf)⟩

end Sys2Proof.Machine
end

section
/-! PROOFS. The response of a transaction as the two digits of its exact sum: the outputs follow from the sum, and
recombine to it (spec/40_word_multiply_add.md R82). -/

namespace Sys2Proof.Machine

open State

/-- Two Words that hold `S` as high and low word are the outputs that show `S`: the digits of a number in base `2^W` are
unique. -/
theorem eq_sumResponse_of_value {W : Width} {r : Response} {S : Nat} (hr : r.Fits W)
    (hS : r.carryOut.toNat * 2 ^ W.bits + r.lo.toNat = S) : r = sumResponse W S := by
  obtain ⟨lo, carryOut⟩ := r
  obtain ⟨hlo, -⟩ : lo.Fits W.bits ∧ carryOut.Fits W.bits := hr
  obtain ⟨hdiv, hmod⟩ : S / 2 ^ W.bits = carryOut.toNat ∧ S % 2 ^ W.bits = lo.toNat :=
    (Nat.div_mod_unique (Nat.two_pow_pos _)).mpr ⟨by rw [Nat.add_comm, Nat.mul_comm, hS], hlo⟩
  simp only [sumResponse, hmod, hdiv, BitVec.ofNat_toNat, BitVec.setWidth_eq]

/-- The outputs of a well-formed transaction show its exact sum (spec/40_word_multiply_add.md R80, R81). -/
theorem respond_eq_sumResponse {c : Config} {i : Instr} (h : i.wf c.width = true) :
    respond c i = sumResponse c.width (exactSum i) :=
  eq_sumResponse_of_value (respond_fits c i) (respond_value h)

/-- A well-formed transaction drives the outputs that show its exact sum, in every build. -/
theorem exec_eq_sumResponse {i : Instr} {s : State} (h : i.wf s.cfg.width = true) :
    exec i s = .next (s.driveOutputs (sumResponse s.cfg.width (exactSum i))) := by
  rw [exec_of_wf h, respond_eq_sumResponse h]

/-- Any two Words that hold the exact sum of a well-formed transaction are its outputs. -/
theorem exec_of_value {i : Instr} {s : State} {r : Response} (h : i.wf s.cfg.width = true) (hr : r.Fits s.cfg.width)
    (hS : r.carryOut.toNat * 2 ^ s.cfg.width.bits + r.lo.toNat = exactSum i) :
    exec i s = .next (s.driveOutputs r) := by
  rw [exec_eq_sumResponse h, ← eq_sumResponse_of_value hr hS]

/-- Of two transactions, what matters is whether they are well-formed and what their exact sums are. -/
theorem exec_congr {i j : Instr} {s : State} (hwf : i.wf s.cfg.width = j.wf s.cfg.width)
    (hS : exactSum i = exactSum j) : exec i s = exec j s := by
  cases h : j.wf s.cfg.width with
  | true => rw [exec_eq_sumResponse (hwf.trans h), exec_eq_sumResponse h, hS]
  | false => rw [exec_eq, exec_eq, hwf, h, if_neg Bool.false_ne_true, if_neg Bool.false_ne_true]

/-- Settles O3: the outputs are two Words that hold the exact sum, and above a Word of `W` bits `|` is `+`. -/
theorem outputsRecombineToExactSum : Obligations.OutputsRecombineToExactSum := by
  intro s t i h
  obtain ⟨hwf, rfl⟩ := exec_next_inv h
  have hvalue := respond_value hwf
  obtain ⟨hlo, -⟩ := respond_fits s.cfg i
  refine ⟨respond s.cfg i, driveOutputs_rsp .., hvalue, hlo, ?_⟩
  rw [← Nat.shiftLeft_add_eq_or_of_lt hlo, Nat.shiftLeft_eq, hvalue]

end Sys2Proof.Machine
end

section
/-! PROOFS. The bounds of the two sums, and the two operations in full (spec/40_word_multiply_add.md R80, R81, R84). -/

namespace Sys2Proof.Machine

/-- `MAX` as the high word weighs `M^2 + M` for `M = 2^W - 1` (R84). -/
theorem max_mul_two_pow (n : Nat) : (2 ^ n - 1) * 2 ^ n = (2 ^ n - 1) ^ 2 + (2 ^ n - 1) := by
  obtain ⟨m, hm⟩ : ∃ m, 2 ^ n = m + 1 := Nat.exists_eq_succ_of_ne_zero (Nat.two_pow_pos n).ne'
  rw [hm, Nat.add_sub_cancel, Nat.pow_two, Nat.mul_succ]

/-- `M^2 + M = 2^(2W) - 2^W` for `M = 2^W - 1` (R84). -/
theorem max_sq_add_max (n : Nat) : (2 ^ n - 1) ^ 2 + (2 ^ n - 1) = 2 ^ (2 * n) - 2 ^ n := by
  rw [← max_mul_two_pow, Nat.sub_one_mul, two_pow_double]

/-- `M^2 + 2M = 2^(2W) - 1` for `M = 2^W - 1` (R84). -/
theorem max_sq_add_two_max (n : Nat) : (2 ^ n - 1) ^ 2 + 2 * (2 ^ n - 1) = 2 ^ (2 * n) - 1 := by
  have hM := max_sq_add_max n
  have hle : 2 ^ n ≤ 2 ^ (2 * n) := Nat.pow_le_pow_right Nat.two_pos (by omega)
  have hpos := Nat.two_pow_pos n
  omega

section Bounds
variable {n : Nat} {a b addend carryIn : Word}

/-- A product of two Words is at most `M^2`. -/
theorem mul_le_max_sq (ha : a.Fits n) (hb : b.Fits n) : a.toNat * b.toNat ≤ (2 ^ n - 1) ^ 2 := by
  rw [Nat.pow_two]
  exact Nat.mul_le_mul (Nat.le_sub_one_of_lt ha) (Nat.le_sub_one_of_lt hb)

/-- The sum of MADD2 is at most `M^2 + M` (R84). -/
theorem madd2_sum_le (ha : a.Fits n) (hb : b.Fits n) (hk : carryIn.Fits n) :
    a.toNat * b.toNat + carryIn.toNat ≤ (2 ^ n - 1) ^ 2 + (2 ^ n - 1) :=
  Nat.add_le_add (mul_le_max_sq ha hb) (Nat.le_sub_one_of_lt hk)

/-- The sum of MADD3 is at most `M^2 + 2M` (R84). -/
theorem madd3_sum_le (ha : a.Fits n) (hb : b.Fits n) (hc : addend.Fits n) (hk : carryIn.Fits n) :
    a.toNat * b.toNat + addend.toNat + carryIn.toNat ≤ (2 ^ n - 1) ^ 2 + 2 * (2 ^ n - 1) := by
  rw [Nat.two_mul, ← Nat.add_assoc]
  exact Nat.add_le_add (madd2_sum_le ha hb hc) (Nat.le_sub_one_of_lt hk)

end Bounds

/-- Settles O1: a well-formed MADD2 drives its exact sum, which is bounded by `M^2 + M`, and its request has the match
value of its table row. -/
theorem madd2GivesExactSum : Obligations.Madd2GivesExactSum := by
  intro s a b addend carryIn n S ha hb hc hk
  have hwf : (Instr.madd2 a b addend carryIn).wf s.cfg.width = true := (operandsFit_iff ..).mpr ⟨ha, hb, hc, hk⟩
  exact ⟨exec_eq_sumResponse hwf, max_sq_add_max n ▸ madd2_sum_le ha hb hk,
    (and_one_eq_zero_iff _).mp (Laws.Opcode.madd2 a b addend carryIn s.cfg.width)⟩

/-- Settles O2: a well-formed MADD3 drives its exact sum, which is bounded by `M^2 + 2M`, and its request has the match
value of its table row. -/
theorem madd3GivesExactSum : Obligations.Madd3GivesExactSum := by
  intro s a b addend carryIn n S ha hb hc hk
  have hwf : (Instr.madd3 a b addend carryIn).wf s.cfg.width = true := (operandsFit_iff ..).mpr ⟨ha, hb, hc, hk⟩
  exact ⟨exec_eq_sumResponse hwf, max_sq_add_two_max n ▸ madd3_sum_le ha hb hc hk,
    (and_one_eq_one_iff _).mp (Laws.Opcode.madd3 a b addend carryIn s.cfg.width)⟩

/-- Settles O5: the response of each operation is two Words that hold its exact sum, and the sums are bounded. -/
theorem sumNeverOverflows : Obligations.SumNeverOverflows := by
  intro s a b addend carryIn n M ha hb hc hk
  have hfit : operandsFit s.cfg.width a b addend carryIn = true := (operandsFit_iff ..).mpr ⟨ha, hb, hc, hk⟩
  have hwf2 : (Instr.madd2 a b addend carryIn).wf s.cfg.width = true := hfit
  have hwf3 : (Instr.madd3 a b addend carryIn).wf s.cfg.width = true := hfit
  have hcarry (i : Instr) : (respond s.cfg i).carryOut.toNat ≤ M := Nat.le_sub_one_of_lt (respond_fits s.cfg i).2
  have hsq := max_sq_add_two_max n
  exact ⟨⟨_, exec_of_wf hwf2, respond_value hwf2, madd2_sum_le ha hb hk, hcarry _⟩,
    ⟨_, exec_of_wf hwf3, respond_value hwf3, madd3_sum_le ha hb hc hk, hcarry _⟩,
    max_sq_add_max n, hsq, hsq.trans_lt (Nat.sub_one_lt (Nat.two_pow_pos _).ne')⟩

end Sys2Proof.Machine
end

section
/-! PROOFS. Operands that may be exchanged or left out (spec/40_word_multiply_add.md R83, R87). -/

namespace Sys2Proof.Machine

theorem zero_fits (n : Nat) : Word.Fits n 0 := Nat.two_pow_pos n

/-- The factors play the same part in well-formedness. -/
theorem operandsFit_swap_factors (W : Width) (a b addend carryIn : Word) :
    operandsFit W a b addend carryIn = operandsFit W b a addend carryIn := by
  rw [operandsFit, operandsFit, Bool.and_comm (decide (a.Fits _))]

/-- The terms play the same part in well-formedness. -/
theorem operandsFit_swap_terms (W : Width) (a b addend carryIn : Word) :
    operandsFit W a b addend carryIn = operandsFit W a b carryIn addend := by
  rw [operandsFit, operandsFit, Bool.and_right_comm]

/-- Two wrapped adds after one another and their two overflow words together are the exact sum. -/
theorem overflowWords_of_two_adds {w : Nat} (x t u : BitVec w) :
    ((overflowWord (x + t) t).toNat + (overflowWord (x + t + u) u).toNat) * 2 ^ w + (x + t + u).toNat =
      x.toNat + t.toNat + u.toNat := by
  have hfirst := overflowWord_mul_add_toNat_add x t
  have hsecond := overflowWord_mul_add_toNat_add (x + t) u
  rw [Nat.add_mul]
  omega

/-- The two overflows of adding two terms are as many in either order. -/
theorem overflowWord_add_comm {w : Nat} (x t u : BitVec w) :
    overflowWord (x + t) t + overflowWord (x + t + u) u = overflowWord (x + u) u + overflowWord (x + u + t) t := by
  have hcount : (overflowWord (x + t) t).toNat + (overflowWord (x + t + u) u).toNat =
      (overflowWord (x + u) u).toNat + (overflowWord (x + u + t) t).toNat := by
    have htu := overflowWords_of_two_adds x t u
    have hut := overflowWords_of_two_adds x u t
    rw [add_right_comm x u t, Nat.add_right_comm x.toNat] at hut
    rw [add_right_comm x u t]
    exact Nat.eq_of_mul_eq_mul_right (Nat.two_pow_pos w) (Nat.add_right_cancel (htu.trans hut.symm))
  exact BitVec.eq_of_toNat_eq (by rw [BitVec.toNat_add, BitVec.toNat_add, hcount])

/-- The order of two fallback stages changes neither half (R87). -/
theorem addStage_comm {w : Nat} (t u : BitVec w) (p : BitVec w × BitVec w) :
    addStage u (addStage t p) = addStage t (addStage u p) := by
  refine Prod.ext (add_right_comm ..) ?_
  simp only [addStage, BitVec.add_assoc p.2, overflowWord_add_comm p.1 t u]

/-- Settles O4: with a zero addend the exact sums are the same, and a Word on the addend port keeps the transaction
well-formed as 0 does. -/
theorem madd2IsMadd3WithZeroAddend : Obligations.Madd2IsMadd3WithZeroAddend := by
  intro s a b addend carryIn hc
  rw [exec_madd2_addend hc (zero_fits _)]
  exact exec_congr rfl rfl

/-- Settles O8: an exchange keeps the exact sum and well-formedness, and fallback stages commute. -/
theorem operandsMayBeExchanged : Obligations.OperandsMayBeExchanged := by
  refine ⟨fun s a b addend carryIn => ⟨?factors_madd2, ?factors_madd3, ?terms_madd3⟩,
    fun w impl a b addend carryIn => addStage_comm addend carryIn _⟩
  case factors_madd2 => exact exec_congr (operandsFit_swap_factors ..) (by rw [exactSum, exactSum, Nat.mul_comm])
  case factors_madd3 => exact exec_congr (operandsFit_swap_factors ..) (by rw [exactSum, exactSum, Nat.mul_comm])
  case terms_madd3 => exact exec_congr (operandsFit_swap_terms ..) (Nat.add_right_comm ..)

end Sys2Proof.Machine
end

section
/-! PROOFS. The corner cases: maximal inputs, a zero product, and a carry passed on by a zero product
(spec/40_word_multiply_add.md R85, R86, R88). -/

namespace Sys2Proof.Machine

open State

theorem toNat_max (W : Width) : (Word.max W.bits).toNat = 2 ^ W.bits - 1 :=
  Nat.mod_eq_of_lt (Nat.lt_of_lt_of_le (Nat.sub_one_lt (Nat.two_pow_pos _).ne') (two_pow_width_le W))

theorem max_fits (W : Width) : (Word.max W.bits).Fits W.bits := by
  rw [Word.Fits, toNat_max]
  exact Nat.sub_one_lt (Nat.two_pow_pos _).ne'

/-- Only the largest factors and the largest term reach the largest sum of a product and a term. -/
theorem eq_max_of_le_mul_add {m a b c : Nat} (hm : 0 < m) (ha : a ≤ m) (hb : b ≤ m) (hc : c ≤ m)
    (h : m ^ 2 + m ≤ a * b + c) : a = m ∧ b = m ∧ c = m := by
  have hab : m * m ≤ a * b := by rw [← Nat.pow_two]; omega
  have hma : m ≤ a := Nat.le_of_mul_le_mul_right (hab.trans (Nat.mul_le_mul_left a hb)) hm
  have hmb : m ≤ b := Nat.le_of_mul_le_mul_left (hab.trans (Nat.mul_le_mul_right b ha)) hm
  have hle : a * b ≤ m ^ 2 := Nat.pow_two m ▸ Nat.mul_le_mul ha hb
  omega

/-- The only well-formed MADD2 whose `carry_out` is MAX has all its inputs at MAX (R85). -/
theorem madd2_operands_max {c : Config} {a b addend carryIn : Word}
    (h : (Instr.madd2 a b addend carryIn).wf c.width = true)
    (hmax : (respond c (.madd2 a b addend carryIn)).carryOut = Word.max c.width.bits) :
    a = Word.max c.width.bits ∧ b = Word.max c.width.bits ∧ carryIn = Word.max c.width.bits := by
  obtain ⟨ha, hb, -, hk⟩ := (operandsFit_iff ..).mp h
  have hM : 0 < 2 ^ c.width.bits - 1 := Nat.sub_pos_of_lt (Nat.one_lt_two_pow (width_pos _).ne')
  have hS := respond_value h
  rw [hmax, toNat_max, max_mul_two_pow, exactSum] at hS
  simp only [← BitVec.toNat_inj, toNat_max]
  exact eq_max_of_le_mul_add hM (Nat.le_sub_one_of_lt ha) (Nat.le_sub_one_of_lt hb) (Nat.le_sub_one_of_lt hk)
    (hS ▸ Nat.le_add_right ..)

/-- Settles O6: the largest sums are `MAX * 2^W` and `MAX * 2^W + MAX`, and no other MADD2 reaches the first. -/
theorem maximalInputs : Obligations.MaximalInputs := by
  intro s n MAX
  have hMAX : MAX.Fits n := max_fits _
  have hM : MAX.toNat = 2 ^ n - 1 := toNat_max _
  have hhigh : MAX.toNat * 2 ^ n = MAX.toNat * MAX.toNat + MAX.toNat := by rw [hM, max_mul_two_pow, Nat.pow_two]
  refine ⟨fun addend hc => ?madd2, ?madd3, fun a b addend carryIn lo h => ?only⟩
  case madd2 => exact exec_of_value ((operandsFit_iff ..).mpr ⟨hMAX, hMAX, hc, hMAX⟩) ⟨zero_fits n, hMAX⟩ hhigh
  case madd3 =>
    exact exec_of_value ((operandsFit_iff ..).mpr ⟨hMAX, hMAX, hMAX, hMAX⟩) ⟨hMAX, hMAX⟩
      (congrArg (· + MAX.toNat) hhigh)
  case only =>
    obtain ⟨hwf, hdriven⟩ := exec_next_inv h
    have hrsp := Option.some.inj (congrArg State.rsp hdriven)
    exact madd2_operands_max hwf (congrArg Response.carryOut hrsp).symm

/-- MADD2 with a zero product gives its carry back as `lo`, and no carry (R86). -/
theorem exec_madd2_of_zero_product {s : State} {a b addend carryIn : Word}
    (h : (Instr.madd2 a b addend carryIn).wf s.cfg.width = true) (hk : carryIn.Fits s.cfg.width.bits)
    (hab : a.toNat * b.toNat = 0) :
    exec (.madd2 a b addend carryIn) s = .next (s.driveOutputs ⟨carryIn, 0⟩) :=
  exec_of_value h ⟨hk, zero_fits _⟩ (by simp [exactSum, hab])

/-- The carry of adding two Words is 1 when the sum wraps and 0 when it does not (R86). -/
theorem sum_div_two_pow {n x y : Nat} (hx : x < 2 ^ n) (hy : y < 2 ^ n) :
    BitVec.ofNat 64 ((x + y) / 2 ^ n) = if 2 ^ n ≤ x + y then 1 else 0 := by
  split
  · rename_i hwrap
    rw [Nat.div_eq_of_lt_le (k := 1) (by omega) (by omega)]
    rfl
  · rename_i hfits
    rw [Nat.div_eq_of_lt (Nat.lt_of_not_le hfits)]
    rfl

/-- Settles O7: a zero factor leaves the additive terms as the exact sum. -/
theorem zeroProductIsCarryChainAdd : Obligations.ZeroProductIsCarryChainAdd := by
  intro s a b addend carryIn n ha hb hc hk hzero
  have hab : a.toNat * b.toNat = 0 := by rcases hzero with rfl | rfl <;> simp
  have hfit : operandsFit s.cfg.width a b addend carryIn = true := (operandsFit_iff ..).mpr ⟨ha, hb, hc, hk⟩
  have h0 : Word.Fits n 0 := zero_fits n
  refine ⟨exec_madd2_of_zero_product hfit hk hab, ?terms, ?all_zero⟩
  case terms =>
    have hwf : (Instr.madd3 a b addend carryIn).wf s.cfg.width = true := hfit
    rw [exec_eq_sumResponse hwf, exactSum, hab, Nat.zero_add, sumResponse, sum_div_two_pow hc hk]
  case all_zero => exact exec_of_value ((operandsFit_iff ..).mpr ⟨h0, h0, h0, h0⟩) ⟨h0, h0⟩ (by simp [exactSum])

/-- Settles O9: the first carry is a Word, and the second MADD2 has a zero product. -/
theorem zeroCarryChainPassesCarryThrough : Obligations.ZeroCarryChainPassesCarryThrough := by
  intro s a b addend addend' n ha hb hc hc'
  have h0 : Word.Fits n 0 := zero_fits n
  have hk : (respond s.cfg (.madd2 a b addend 0)).carryOut.Fits n := (respond_fits s.cfg _).2
  exact ⟨_, _, exec_of_wf ((operandsFit_iff ..).mpr ⟨ha, hb, hc, h0⟩),
    exec_madd2_of_zero_product ((operandsFit_iff ..).mpr ⟨h0, h0, hc', hk⟩) hk (Nat.zero_mul 0)⟩

end Sys2Proof.Machine
end

section
/-! PROOFS. The datapath's parts: the detected overflow, the split product, the limb decomposition, the fallback chain
and the fast tree (spec/41_datapath.md R103, R107, R109, R110, R112). -/

namespace Sys2Proof.Machine

/-- Settles O21: a `BitVec` add wraps, and the overflow word is 1 exactly where the detected overflow is
(`addOverflow_add_iff`). -/
theorem overflowDetectionIsExact : Obligations.OverflowDetectionIsExact := by
  intro w x t
  refine ⟨BitVec.toNat_add x t, addOverflow_add_iff x t, ?_⟩
  rw [overflowWord, apply_ite BitVec.toNat, BitVec.toNat_ofNat, BitVec.toNat_ofNat, Nat.zero_mod]
  exact if_congr (addOverflow_add_iff x t) rfl rfl

/-- The low half of a pair is the remainder of the number the pair holds. -/
theorem toNat_fst_eq_mod {w : Nat} (p : BitVec w × BitVec w) : p.1.toNat = doubleValue p % 2 ^ w := by
  rw [doubleValue, Nat.mul_add_mod_self_right, Nat.mod_eq_of_lt p.1.isLt]

/-- The high half of a pair is the quotient of the number the pair holds. -/
theorem toNat_snd_eq_div {w : Nat} (p : BitVec w × BitVec w) : p.2.toNat = doubleValue p / 2 ^ w := by
  rw [doubleValue, Nat.mul_comm, Nat.mul_add_div (Nat.two_pow_pos w), Nat.div_eq_of_lt p.1.isLt, Nat.add_zero]

/-- Two pairs of halves that hold one number are bit for bit the same. -/
theorem doubleValue_injective {w : Nat} : Function.Injective (doubleValue (w := w)) := by
  intro p q h
  refine Prod.ext (BitVec.eq_of_toNat_eq ?_) (BitVec.eq_of_toNat_eq ?_)
  · rw [toNat_fst_eq_mod, toNat_fst_eq_mod, h]
  · rw [toNat_snd_eq_div, toNat_snd_eq_div, h]

/-- The high word of a product of two Words is never MAX (R103). -/
theorem mul_div_two_pow_le {n a b : Nat} (hn : 0 < n) (ha : a < 2 ^ n) (hb : b < 2 ^ n) :
    a * b / 2 ^ n ≤ 2 ^ n - 2 := by
  have hM : 0 < 2 ^ n - 1 := Nat.sub_pos_of_lt (Nat.one_lt_two_pow hn.ne')
  have hlt : a * b < (2 ^ n - 1) * 2 ^ n := Nat.mul_lt_mul_of_le_of_lt (Nat.le_sub_one_of_lt ha) hb hM
  exact Nat.le_sub_one_of_lt (Nat.div_lt_of_lt_mul (Nat.mul_comm _ (2 ^ n) ▸ hlt))

/-- Settles O22: either implementation's halves hold the exact product (`doubleValue_splitMul`), so they are its
quotient and remainder, and one and the same pair. -/
theorem splitMultiplyIsExact : Obligations.SplitMultiplyIsExact := by
  intro W impl a b p
  have hexact (impl : SplitMulImpl) : doubleValue (splitMul impl a b) = a.toNat * b.toNat :=
    doubleValue_splitMul (width_even W) impl a b
  have hlow : p.1.toNat = a.toNat * b.toNat % 2 ^ W.bits := hexact impl ▸ toNat_fst_eq_mod p
  have hhigh : p.2.toNat = a.toNat * b.toNat / 2 ^ W.bits := hexact impl ▸ toNat_snd_eq_div p
  exact ⟨hexact impl, hlow, hhigh, hhigh.trans_le (mul_div_two_pow_le (width_pos W) a.isLt b.isLt),
    doubleValue_injective ((hexact .hwMul).trans (hexact .limbDecomp).symm)⟩

/-- Settles O23: the registers of the limb decomposition, one lemma for each; the adds into `x0` and `ph` do not overflow
because the exact high word fits (`limb_high_lt`). -/
theorem limbDecompositionIsExact : Obligations.LimbDecompositionIsExact := by
  intro h a b L
  have hhigh : L.x0.toNat + L.cy.toNat * 2 ^ h + L.x2Final.toNat / 2 ^ h < 2 ^ (2 * h) := limb_high_lt a b
  have hx0Final : L.x0Final.toNat = L.x0.toNat + L.cy.toNat * 2 ^ h := toNat_limb_x0Final a b
  exact ⟨limb_partial_products a b, limb_middle_sum a b, toNat_limb_ph a b, toNat_limb_pl a b, limb_product a b,
    limb_x2_add_lt a b, Nat.lt_of_le_of_lt (Nat.le_add_right ..) hhigh, hx0Final ▸ hhigh⟩

/-- Settles O24: the exact sum of both terms fits in two words, so each stage adds exactly (`doubleValue_addStage`) and
its increment has no carry out (`toNat_addStage_high`). -/
theorem fallbackPartialSumsAreExact : Obligations.FallbackPartialSumsAreExact := by
  intro W impl a b addend carryIn p0 p1 p2
  have hlt := mul_add_add_lt_two_pow a.isLt b.isLt addend.isLt carryIn.isLt
  have hproduct : doubleValue p0 = a.toNat * b.toNat := doubleValue_splitMul (width_even W) impl a b
  have hfits1 : doubleValue p0 + addend.toNat < 2 ^ (2 * W.bits) := by rw [hproduct]; omega
  have hstage1 : doubleValue p1 = a.toNat * b.toNat + addend.toNat := hproduct ▸ doubleValue_addStage hfits1
  have hfits2 : doubleValue p1 + carryIn.toNat < 2 ^ (2 * W.bits) := hstage1.symm ▸ hlt
  have hstage2 : doubleValue p2 = a.toNat * b.toNat + addend.toNat + carryIn.toNat :=
    hstage1 ▸ doubleValue_addStage hfits2
  exact ⟨hproduct, hstage1, hstage2, (toNat_addStage_high hfits1).symm, (toNat_addStage_high hfits2).symm⟩

/-- Settles O25: both bounds are `mul_add_add_lt_two_pow`, for one term with MAX in the place of the other. -/
theorem fastTreeNeverOverflows : Obligations.FastTreeNeverOverflows := by
  intro w a b addend carryIn P
  have hP : P.toNat = a.toNat * b.toNat := toNat_wideProduct a b
  have hM : 2 ^ w - 1 < 2 ^ w := Nat.sub_one_lt (Nat.two_pow_pos w).ne'
  have hone : P.toNat + carryIn.toNat + (2 ^ w - 1) < 2 ^ (2 * w) :=
    hP ▸ mul_add_add_lt_two_pow a.isLt b.isLt carryIn.isLt hM
  have htwo : P.toNat + addend.toNat + carryIn.toNat < 2 ^ (2 * w) :=
    hP ▸ mul_add_add_lt_two_pow a.isLt b.isLt addend.isLt carryIn.isLt
  exact ⟨hP, by omega, toNat_fastTree1 (Nat.lt_of_le_of_lt (Nat.le_add_right ..) hone), Nat.le_sub_one_of_lt htwo,
    toNat_fastTree2 htwo⟩

end Sys2Proof.Machine
end

section
/-! PROOFS. The strategies and the builds agree (spec/41_datapath.md R113). -/

namespace Sys2Proof.Machine

/-- A build forced onto the fallback, whose product is formed by `impl`. -/
def forcedFallback (impl : SplitMulImpl) : Config :=
  { Config.reference with forceFallback := true, splitMulImpl := impl }

section Agreement
variable {w : Nat} (a b addend carryIn : BitVec w)

theorem datapathMadd2_reference : datapathMadd2 Config.reference a b carryIn = fastMadd2 a b carryIn := rfl

theorem datapathMadd3_reference :
    datapathMadd3 Config.reference a b addend carryIn = fastMadd3 a b addend carryIn := rfl

theorem datapathMadd2_forcedFallback (impl : SplitMulImpl) :
    datapathMadd2 (forcedFallback impl) a b carryIn = fallbackMadd2 impl a b carryIn := rfl

theorem datapathMadd3_forcedFallback (impl : SplitMulImpl) :
    datapathMadd3 (forcedFallback impl) a b addend carryIn = fallbackMadd3 impl a b addend carryIn := rfl

/-- The build plays no part in MADD2's halves, since they hold the exact sum in every build. -/
theorem datapathMadd2_congr (c c' : Config) (hw : w = 2 * (w / 2)) :
    datapathMadd2 c a b carryIn = datapathMadd2 c' a b carryIn :=
  doubleValue_injective
    ((doubleValue_datapathMadd2 c hw a b carryIn).trans (doubleValue_datapathMadd2 c' hw a b carryIn).symm)

/-- The build plays no part in MADD3's halves, since they hold the exact sum in every build. -/
theorem datapathMadd3_congr (c c' : Config) (hw : w = 2 * (w / 2)) :
    datapathMadd3 c a b addend carryIn = datapathMadd3 c' a b addend carryIn :=
  doubleValue_injective
    ((doubleValue_datapathMadd3 c hw a b addend carryIn).trans
      (doubleValue_datapathMadd3 c' hw a b addend carryIn).symm)

end Agreement

/-- Settles O26: the fast and the fallback datapath are those of two builds, whose halves agree; and every build of a
width responds with the exact sum (`respond_eq_sumResponse`). -/
theorem strategiesAgree : Obligations.StrategiesAgree := by
  refine ⟨fun W impl a b addend carryIn => ⟨?madd2, ?madd3⟩, fun c c' i hwidth hwf => ?builds⟩
  case madd2 =>
    rw [← datapathMadd2_reference, ← datapathMadd2_forcedFallback]
    exact datapathMadd2_congr a b carryIn _ _ (width_even W)
  case madd3 =>
    rw [← datapathMadd3_reference, ← datapathMadd3_forcedFallback]
    exact datapathMadd3_congr a b addend carryIn _ _ (width_even W)
  case builds =>
    have hc : respond c i = sumResponse c.width (exactSum i) := respond_eq_sumResponse hwf
    have hc' : respond c' i = sumResponse c'.width (exactSum i) := respond_eq_sumResponse (hwidth ▸ hwf)
    exact ⟨by rw [hc, hc', hwidth], hc⟩

end Sys2Proof.Machine
end

section
/-! PROOFS. The build-time check of the word width (spec/60_exceptions.md R131, R132). -/

namespace Sys2Proof.Machine

/-- Every width passes the build-time check as itself. -/
@[simp] theorem ofBits_bits (W : Width) : Width.ofBits W.bits = some W := by cases W <;> rfl

/-- The numbers of bits the spec lists (spec/00_scope.md R9) are those of the widths. -/
theorem mem_legalWidths_iff {n : Nat} : n ∈ [8, 16, 32, 64] ↔ ∃ W : Width, W.bits = n := by
  constructor
  · intro h
    simp only [List.mem_cons, List.not_mem_nil, or_false] at h
    obtain rfl | rfl | rfl | rfl := h
    exacts [⟨.w8, rfl⟩, ⟨.w16, rfl⟩, ⟨.w32, rfl⟩, ⟨.w64, rfl⟩]
  · rintro ⟨W, rfl⟩
    cases W <;> decide

/-- The build-time check passes no number of bits outside the list. -/
theorem ofBits_eq_none {n : Nat} (h : n ∉ [8, 16, 32, 64]) : Width.ofBits n = none := by
  simp only [List.mem_cons, List.not_mem_nil, or_false, not_or] at h
  obtain ⟨h8, h16, h32, h64⟩ := h
  rw [Width.ofBits, if_neg h8, if_neg h16, if_neg h32, if_neg h64]

section Build
variable (native force : Bool) (impl : SplitMulImpl) (latency : Nat)

theorem buildConfig_bits (W : Width) :
    buildConfig W.bits native force impl latency = .ok ⟨W, native, force, impl, latency⟩ := by
  rw [buildConfig, ofBits_bits]

theorem buildConfig_of_ofBits_none {n : Nat} (h : Width.ofBits n = none) :
    buildConfig n native force impl latency = .error .unsupportedWidth := by
  rw [buildConfig, h]

end Build

/-- Settles O28: a listed number of bits is that of a width, whose build is accepted with every other parameter as
asked; any other number fails the build-time check. -/
theorem unsupportedWidthIsRejected : Obligations.UnsupportedWidthIsRejected := by
  intro n native force impl latency
  refine ⟨fun h => buildConfig_of_ofBits_none native force impl latency (ofBits_eq_none h), fun h => ?accepted⟩
  case accepted =>
    obtain ⟨W, rfl⟩ := mem_legalWidths_iff.mp h
    exact ⟨_, buildConfig_bits native force impl latency W, rfl, rfl, rfl, rfl, rfl⟩

end Sys2Proof.Machine
end

section
/-! PROOFS. The two directions of the encoding: a request holds the operands in its fields, and is made up of them
(spec/30_encoding.md R60 to R65). -/

namespace Sys2Proof

open Sys2Proof.Machine

theorem txnField_fits (W : Width) (v : BitVec (txnBits W)) (lo : Nat) : (txnField W v lo).Fits W.bits :=
  ofPortBits_fits W _

theorem toNat_txnField (W : Width) (v : BitVec (txnBits W)) (lo : Nat) :
    (txnField W v lo).toNat = v.toNat / 2 ^ lo % 2 ^ W.bits := by
  rw [txnField, toNat_ofPortBits, BitVec.extractLsb'_toNat, Nat.shiftRight_eq_div_pow]

/-- The low `k + m` bits of a number are its low `k` bits with the next `m` above them. -/
theorem mod_two_pow_add_field {v k m e : Nat} (he : k + m = e) :
    v % 2 ^ k + v / 2 ^ k % 2 ^ m * 2 ^ k = v % 2 ^ e := by
  rw [← he, Nat.pow_add, Nat.mod_mul, Nat.mul_comm]

/-- A request is its operation bit and its four fields, packed (R60). -/
theorem packTxn_txnFields {W : Width} {op : Nat} {v : BitVec (txnBits W)} (hop : v.toNat % 2 ^ 1 = op) :
    packTxn W op (txnField W v 1) (txnField W v (W.bits + 1)) (txnField W v (2 * W.bits + 1))
      (txnField W v (3 * W.bits + 1)) = v := by
  have hlt : op < 2 ^ 1 := hop ▸ Nat.mod_lt _ Nat.two_pos
  apply BitVec.eq_of_toNat_eq
  rw [toNat_packTxn hlt (txnField_fits ..) (txnField_fits ..) (txnField_fits ..) (txnField_fits ..)]
  calc op + (txnField W v 1).toNat * 2 ^ 1 + (txnField W v (W.bits + 1)).toNat * 2 ^ (W.bits + 1) +
        (txnField W v (2 * W.bits + 1)).toNat * 2 ^ (2 * W.bits + 1) +
        (txnField W v (3 * W.bits + 1)).toNat * 2 ^ (3 * W.bits + 1)
      = v.toNat % 2 ^ txnBits W := by
        rw [← hop, toNat_txnField, toNat_txnField, toNat_txnField, toNat_txnField,
          mod_two_pow_add_field (Nat.add_comm 1 _), mod_two_pow_add_field (e := 2 * W.bits + 1) (by omega),
          mod_two_pow_add_field (e := 3 * W.bits + 1) (by omega),
          mod_two_pow_add_field (e := txnBits W) (by unfold txnBits; omega)]
    _ = v.toNat := Nat.mod_eq_of_lt v.isLt

/-- Decoding a request vector loses nothing of it (R64). -/
theorem encodeTxn_decodeTxn (W : Width) (v : BitVec (txnBits W)) : encodeTxn W (decodeTxn W v) = v := by
  cases h : v.getLsbD 0 with
  | false =>
    rw [decodeTxn_of_bit_clear h]
    exact packTxn_txnFields (by simpa [BitVec.getLsbD, Instr.op] using h)
  | true =>
    rw [decodeTxn_of_bit_set h]
    exact packTxn_txnFields (by simpa [BitVec.getLsbD, Instr.op] using h)

theorem decodeTxn_wf (W : Width) (v : BitVec (txnBits W)) : (decodeTxn W v).wf W = true := by
  have hfit : operandsFit W (txnField W v 1) (txnField W v (W.bits + 1)) (txnField W v (2 * W.bits + 1))
      (txnField W v (3 * W.bits + 1)) = true :=
    (operandsFit_iff ..).mpr ⟨txnField_fits .., txnField_fits .., txnField_fits .., txnField_fits ..⟩
  cases h : v.getLsbD 0 with
  | false => rw [decodeTxn_of_bit_clear h]; exact hfit
  | true => rw [decodeTxn_of_bit_set h]; exact hfit

/-- Above a digit of base `m` stands the rest of a number. -/
theorem digit_add_mul_div {m x : Nat} (hx : x < m) (y : Nat) : (x + m * y) / m = y := by
  rw [Nat.add_mul_div_left _ _ (Nat.zero_lt_of_lt hx), Nat.div_eq_of_lt hx, Nat.zero_add]

/-- The lowest digit of a number in base `m`. -/
theorem digit_add_mul_mod {m x : Nat} (hx : x < m) (y : Nat) : (x + m * y) % m = x := by
  rw [Nat.add_mul_mod_self_left, Nat.mod_eq_of_lt hx]

/-- The fields of a packed request are the operands packed into it (R60, R63). -/
theorem txnFields_packTxn {W : Width} {op : Nat} {a b addend carryIn : Word} (hop : op < 2) (ha : a.Fits W.bits)
    (hb : b.Fits W.bits) (hc : addend.Fits W.bits) (hk : carryIn.Fits W.bits) :
    let v := packTxn W op a b addend carryIn
    txnField W v 1 = a ∧ txnField W v (W.bits + 1) = b ∧ txnField W v (2 * W.bits + 1) = addend ∧
      txnField W v (3 * W.bits + 1) = carryIn := by
  intro v
  have hv : v.toNat = op + 2 * (a.toNat + 2 ^ W.bits * (b.toNat + 2 ^ W.bits * (addend.toNat +
      2 ^ W.bits * carryIn.toNat))) := by
    rw [toNat_packTxn hop ha hb hc hk]
    ring
  have hn : 2 ^ (W.bits + 1) = 2 * 2 ^ W.bits := Nat.pow_succ'
  have h2n : 2 ^ (2 * W.bits + 1) = 2 * 2 ^ W.bits * 2 ^ W.bits := by ring
  have h3n : 2 ^ (3 * W.bits + 1) = 2 * 2 ^ W.bits * 2 ^ W.bits * 2 ^ W.bits := by ring
  simp only [← BitVec.toNat_inj, toNat_txnField, hv, hn, h2n, h3n, ← Nat.div_div_eq_div_mul, Nat.pow_one,
    digit_add_mul_div hop, digit_add_mul_div ha, digit_add_mul_div hb, digit_add_mul_div hc, digit_add_mul_mod ha,
    digit_add_mul_mod hb, digit_add_mul_mod hc, Nat.mod_eq_of_lt hk, and_self]

theorem decodeTxn_encodeTxn {W : Width} {i : Instr} (h : i.wf W = true) : decodeTxn W (encodeTxn W i) = i := by
  cases i with
  | madd2 a b addend carryIn =>
    obtain ⟨ha, hb, hc, hk⟩ := (operandsFit_iff ..).mp h
    have hbit := (and_one_eq_zero_iff _).mp (Laws.Opcode.madd2 a b addend carryIn W)
    obtain ⟨fa, fb, fc, fk⟩ := txnFields_packTxn Nat.two_pos ha hb hc hk
    exact (decodeTxn_of_bit_clear hbit).trans (congr (congr (congr (congrArg _ fa) fb) fc) fk)
  | madd3 a b addend carryIn =>
    obtain ⟨ha, hb, hc, hk⟩ := (operandsFit_iff ..).mp h
    have hbit := (and_one_eq_one_iff _).mp (Laws.Opcode.madd3 a b addend carryIn W)
    obtain ⟨fa, fb, fc, fk⟩ := txnFields_packTxn Nat.one_lt_two ha hb hc hk
    exact (decodeTxn_of_bit_set hbit).trans (congr (congr (congr (congrArg _ fa) fb) fc) fk)

/-- Pins laid out for a vector decode as the vector. -/
theorem decode_pinsOf (W : Width) (v : BitVec (txnBits W)) :
    decode W (pinsOf (txnBits W) v.toNat) = .ok (decodeTxn W v) := by
  simp [decode, pinsValue_pinsOf]

/-- Settles O14: the pins of a request carry its vector, whose fields are the operands packed into it. -/
theorem decodeOfEncode : Obligations.DecodeOfEncode := by
  intro W i h
  rw [encode, decode_pinsOf, decodeTxn_encodeTxn h]

/-- Accepted pins are the pins of a vector that decodes to the instruction. -/
theorem decode_ok_inv {W : Width} {pins : List Pin} {i : Instr} (h : decode W pins = .ok i) :
    ∃ v : BitVec (txnBits W), i = decodeTxn W v ∧ pinsOf (txnBits W) v.toNat = pins := by
  unfold decode at h
  split at h
  · rename_i hlength
    split at h
    · rename_i v hv
      obtain ⟨hlt, hpins⟩ := pinsOf_pinsValue hv
      cases h
      refine ⟨_, rfl, ?_⟩
      rw [BitVec.toNat_ofNat, ← hlength, Nat.mod_eq_of_lt hlt, hpins]
    · cases h
  · cases h

theorem decode_ok_wf {W : Width} {pins : List Pin} {i : Instr} (h : decode W pins = .ok i) : i.wf W = true := by
  obtain ⟨v, rfl, -⟩ := decode_ok_inv h
  exact decodeTxn_wf W v

/-- Settles O15: accepted pins carry a vector, and packing its operation bit and fields gives that vector back. -/
theorem encodeOfDecode : Obligations.EncodeOfDecode := by
  intro W pins i h
  refine ⟨decode_ok_wf h, ?_⟩
  obtain ⟨v, rfl, hpins⟩ := decode_ok_inv h
  rw [encode, encodeTxn_decodeTxn, hpins]

/-- Definite pins of the right number decode. -/
theorem decode_definite {W : Width} {pins : List Pin} (hlength : pins.length = txnBits W)
    (hdefinite : Pin.undriven ∉ pins) : ∃ i, decode W pins = .ok i := by
  obtain ⟨v, hv⟩ := Option.ne_none_iff_exists'.mp (mt (pinsValue_eq_none_iff pins).mp hdefinite)
  exact ⟨_, by simp only [decode, if_pos hlength, hv]; rfl⟩

/-- An undriven pin rejects a request of the right length, wherever it stands (R64). -/
theorem decode_undriven {W : Width} {pins : List Pin} (hlength : pins.length = txnBits W)
    (hundriven : Pin.undriven ∈ pins) : decode W pins = .error .undrivenInput := by
  simp only [decode, if_pos hlength, (pinsValue_eq_none_iff pins).mpr hundriven]

end Sys2Proof
end

section
/-! PROOFS. A request the block takes: what `transact` answers, by what the pins decode to, and what taking a request
leaves of the state (spec/20_memory.md R43, R48; spec/70_reset_and_hazards.md R153). -/

namespace Sys2Proof.Machine

open State

/-- The answer of a step, with its next state put in place of a result. -/
def mapNext {α β : Type} (f : α → β) : Host.Outcome α Fault Refusal → Host.Outcome β Fault Refusal
  | .next a => .next (f a)
  | .fault r => .fault r
  | .refused r => .refused r

section MapNext
variable {α β : Type} {f : α → β} {o : Host.Outcome α Fault Refusal}

theorem mapNext_eq_next_iff {b : β} : mapNext f o = .next b ↔ ∃ a, o = .next a ∧ f a = b := by
  cases o <;> simp [mapNext]

theorem mapNext_eq_fault_iff {r : Fault} : mapNext f o = .fault r ↔ o = .fault r := by
  cases o <;> simp [mapNext]

theorem mapNext_eq_refused_iff {r : Refusal} : mapNext f o = .refused r ↔ o = .refused r := by
  cases o <;> simp [mapNext]

end MapNext

/-- What the block makes of the pins of a request: an instruction, or the reason it stops (spec/60_exceptions.md R133;
log 5). -/
def requestOutcome (W : Width) (pins : List Pin) : Host.Outcome Instr Fault Refusal :=
  match decode W pins with
  | .ok i => .next i
  | .error .undrivenInput => .fault .undrivenInput
  | .error .wrongLength => .refused .requestLength

theorem requestOutcome_eq_next_iff {W : Width} {pins : List Pin} {i : Instr} :
    requestOutcome W pins = .next i ↔ decode W pins = .ok i := by
  unfold requestOutcome
  split <;> simp_all

theorem requestOutcome_undriven {W : Width} {pins : List Pin} (hlength : pins.length = txnBits W)
    (hundriven : Pin.undriven ∈ pins) : requestOutcome W pins = .fault .undrivenInput := by
  rw [requestOutcome, decode_undriven hlength hundriven]

/-- A request of the right length is an instruction exactly when its pins are definite (R64). -/
theorem requestOutcome_next_iff {W : Width} {pins : List Pin} (hlength : pins.length = txnBits W) :
    (∃ i, requestOutcome W pins = .next i) ↔ Pin.undriven ∉ pins := by
  by_cases hundriven : Pin.undriven ∈ pins
  · simp [requestOutcome_undriven hlength hundriven, hundriven]
  · obtain ⟨i, hi⟩ := decode_definite hlength hundriven
    simp [requestOutcome_eq_next_iff.mpr hi, hundriven]

/-- A request of the right length faults exactly when one of its pins is not definite (R64). -/
theorem requestOutcome_fault_iff {W : Width} {pins : List Pin} (hlength : pins.length = txnBits W) :
    requestOutcome W pins = .fault .undrivenInput ↔ Pin.undriven ∈ pins := by
  by_cases hundriven : Pin.undriven ∈ pins
  · simp [requestOutcome_undriven hlength hundriven, hundriven]
  · obtain ⟨i, hi⟩ := decode_definite hlength hundriven
    simp [requestOutcome_eq_next_iff.mpr hi, hundriven]

/-- The state after the block has taken a request made in `s` and answered it with `r`. -/
def taken (dest : Option Dest) (r : Response) (s : State) : State := settle s dest (s.sampled.driveOutputs r)

/-- All that `transact` does with a presented request: the instruction on its pins is answered with its response. -/
theorem transact_eq {s : State} {pins : List Pin} (dest : Option Dest) (hp : s.request = some pins) :
    transact dest s = mapNext (fun i => taken dest (respond s.cfg i) s) (requestOutcome s.cfg.width pins) := by
  cases h : decode s.cfg.width pins with
  | ok i => rw [requestOutcome_eq_next_iff.mpr h, transact_of_decode hp h (decode_ok_wf h)]; rfl
  | error e => cases e <;> simp [transact, hp, requestOutcome, h, mapNext]

section Taken
variable (dest : Option Dest) (r : Response) (s : State)

@[simp] theorem taken_cfg : (taken dest r s).cfg = s.cfg := settle_cfg ..
@[simp] theorem taken_request : (taken dest r s).request = none := settle_request ..
@[simp] theorem taken_program : (taken dest r s).program = s.program := settle_program ..
@[simp] theorem taken_pc : (taken dest r s).pc = s.pc := settle_pc ..

end Taken

section TakenBuild
variable {dest : Option Dest} {r : Response} {s : State}

/-- In a combinational build the outputs are on the ports and in their cells at once (spec/20_memory.md R48). -/
theorem taken_untimed (h : s.cfg.latency = 0) :
    taken dest r s = writeBack dest r (s.sampled.driveOutputs r) := settle_untimed rfl h

/-- In a timed build the transaction joins the scoreboard (spec/70_reset_and_hazards.md R153). -/
theorem taken_timed (h : s.cfg.latency ≠ 0) :
    taken dest r s =
      { s.sampled with
        inFlight := s.inFlight ++ [⟨dest, r, Config.freeWait s.cfg s.waitsDrawn (s.request.getD [])⟩]
        waitsDrawn := s.waitsDrawn + 1 } := settle_timed rfl h

end TakenBuild

/-- An instruction as the ports carry it: the low `W` bits of every operand. -/
def onPorts (W : Width) : Instr → Instr
  | .madd2 a b addend carryIn =>
    .madd2 (ofPortBits W (portBits W a)) (ofPortBits W (portBits W b)) (ofPortBits W (portBits W addend))
      (ofPortBits W (portBits W carryIn))
  | .madd3 a b addend carryIn =>
    .madd3 (ofPortBits W (portBits W a)) (ofPortBits W (portBits W b)) (ofPortBits W (portBits W addend))
      (ofPortBits W (portBits W carryIn))

/-- A Word put on the ports is seen there as the same wires. -/
@[simp] theorem portBits_ofPortBits (W : Width) (x : BitVec W.bits) : portBits W (ofPortBits W x) = x := by
  apply BitVec.eq_of_toNat_eq
  rw [toNat_portBits (ofPortBits_fits W x), toNat_ofPortBits]

theorem onPorts_wf (W : Width) (i : Instr) : (onPorts W i).wf W = true := by
  cases i <;>
    exact (operandsFit_iff ..).mpr ⟨ofPortBits_fits .., ofPortBits_fits .., ofPortBits_fits .., ofPortBits_fits ..⟩

theorem encodeTxn_onPorts (W : Width) (i : Instr) : encodeTxn W (onPorts W i) = encodeTxn W i := by
  cases i <;> simp [encodeTxn, onPorts, packTxn, Instr.op]

/-- The response reads the operands off the ports. -/
theorem respond_onPorts (c : Config) (i : Instr) : respond c (onPorts c.width i) = respond c i := by
  cases i <;> simp [respond, onPorts, madd2Response, madd3Response]

/-- The pins of any instruction decode to what the ports carry of it. -/
theorem decode_encode (W : Width) (i : Instr) : decode W (encode W i) = .ok (onPorts W i) := by
  rw [encode, decode_pinsOf, ← encodeTxn_onPorts, decodeTxn_encodeTxn (onPorts_wf W i)]

/-- The state after the harness has issued `i` for the cells `rd` and `rk`. -/
def issued (rd rk : CellName) (i : Instr) (s : State) : State :=
  taken (some ⟨rd, rk⟩) (respond s.cfg i) (s.advance.present (encode s.cfg.width i))

/-- An issue always completes its step: the pins the harness drives are definite (spec/60_exceptions.md R130). -/
theorem issue_eq (rd rk : CellName) (i : Instr) (s : State) : issue rd rk i s = .next (issued rd rk i s) := by
  rw [issue, transact_eq _ (present_request ..), present_cfg, advance_cfg,
    requestOutcome_eq_next_iff.mpr (decode_encode ..), mapNext, respond_onPorts, issued]

end Sys2Proof.Machine
end

section
/-! PROOFS. What a step does, said once: an action, read off the state after the scoreboard's part of the step, or the
reason the step stops (spec/30_encoding.md R67; spec/60_exceptions.md R133; spec/70_reset_and_hazards.md R153). -/

namespace Sys2Proof.Machine

open State

/-- What a step does beside the scoreboard's part. -/
inductive Action where
  /-- Nothing: a hold, or no statement is left. -/
  | wait
  /-- The block takes a request driven directly. -/
  | take (i : Instr)
  /-- The harness writes a cell and goes on. -/
  | write (rd : CellName) (v : Word)
  /-- The harness issues a transaction and goes on. -/
  | issue (rd rk : CellName) (i : Instr)

namespace Action

/-- The state an action leaves. -/
def apply : Action → State → State
  | wait, s => s
  | take i, s => taken none (respond s.cfg i) s
  | write rd v, s => (s.writeCell rd v).advance
  | issue rd rk i, s => issued rd rk i s

/-- The cells an action writes, at once or when its transaction completes. -/
def writes : Action → List CellName
  | wait => []
  | take _ => []
  | write rd _ => [rd]
  | issue rd rk _ => [rd, rk]

section Frame
variable (a : Action) (s : State)

@[simp] theorem apply_cfg : (a.apply s).cfg = s.cfg := by cases a <;> simp [apply, issued]
@[simp] theorem apply_program : (a.apply s).program = s.program := by cases a <;> simp [apply, issued]

end Frame

end Action

/-- The value of a harness operand where the cells read as `read` does. -/
def Operand.value (read : CellName → Option Word) : Operand → Option Word
  | .cell c => read c
  | .imm v => some v

theorem readOperand_eq (s : State) (o : Operand) : readOperand s o = o.value s.readCell := by cases o <;> rfl

/-- What a statement does where the cells read as `read` does; none where a cell it reads is unwritten
(spec/10_state.md R32). -/
def Stmt.action (read : CellName → Option Word) : Stmt → Option Action
  | .li rd v => some (.write rd v)
  | .mov rd rs => (read rs).map (.write rd)
  | .madd2 rd ra rb rk =>
    (ra.value read).bind fun a => (rb.value read).bind fun b => (read rk).map fun carryIn =>
      .issue rd rk (.madd2 a b 0 carryIn)
  | .madd3 rd ra rb rc rk =>
    (ra.value read).bind fun a => (rb.value read).bind fun b => (rc.value read).bind fun addend =>
      (read rk).map fun carryIn => .issue rd rk (.madd3 a b addend carryIn)

section StmtAction
variable {read read' : CellName → Option Word}

theorem Operand.value_congr {o : Operand} (h : ∀ c ∈ o.cells, read c = read' c) : o.value read = o.value read' := by
  cases o with
  | cell c => exact h c List.mem_cons_self
  | imm v => rfl

theorem Operand.value_eq_none_iff {o : Operand} : o.value read = none ↔ ∃ c ∈ o.cells, read c = none := by
  cases o <;> simp [Operand.value, Operand.cells]

/-- A statement looks at no cell but those it reads. -/
theorem Stmt.action_congr {st : Stmt} (h : ∀ c ∈ st.reads, read c = read' c) : st.action read = st.action read' := by
  cases st with
  | li rd v => rfl
  | mov rd rs => exact congrArg (Option.map (Action.write rd)) (h rs List.mem_cons_self)
  | madd2 rd ra rb rk =>
    simp only [Stmt.reads, List.mem_append, or_imp, forall_and, List.mem_singleton, forall_eq] at h
    obtain ⟨⟨ha, hb⟩, hk⟩ := h
    simp only [Stmt.action, Operand.value_congr ha, Operand.value_congr hb, hk]
  | madd3 rd ra rb rc rk =>
    simp only [Stmt.reads, List.mem_append, or_imp, forall_and, List.mem_singleton, forall_eq] at h
    obtain ⟨⟨⟨ha, hb⟩, hc⟩, hk⟩ := h
    simp only [Stmt.action, Operand.value_congr ha, Operand.value_congr hb, Operand.value_congr hc, hk]

/-- A statement does nothing exactly where a cell it reads is unwritten. -/
theorem Stmt.action_eq_none_iff {st : Stmt} : st.action read = none ↔ ∃ c ∈ st.reads, read c = none := by
  cases st with
  | li rd v => simp [Stmt.action, Stmt.reads]
  | mov rd rs => simp [Stmt.action, Stmt.reads]
  | madd2 rd ra rb rk =>
    simp only [Stmt.action, Stmt.reads, List.mem_append, List.mem_singleton, or_and_right, exists_or, exists_eq_left,
      ← Operand.value_eq_none_iff]
    cases ra.value read <;> cases rb.value read <;> simp
  | madd3 rd ra rb rc rk =>
    simp only [Stmt.action, Stmt.reads, List.mem_append, List.mem_singleton, or_and_right, exists_or, exists_eq_left,
      ← Operand.value_eq_none_iff]
    cases ra.value read <;> cases rb.value read <;> cases rc.value read <;> simp

theorem Stmt.action_writes {st : Stmt} {a : Action} (h : st.action read = some a) : a.writes = st.writes := by
  cases st with
  | li rd v => cases h; rfl
  | mov rd rs =>
    obtain ⟨v, -, rfl⟩ := Option.map_eq_some_iff.mp h
    rfl
  | madd2 rd ra rb rk =>
    simp only [Stmt.action, Option.bind_eq_some_iff, Option.map_eq_some_iff] at h
    obtain ⟨_, -, _, -, _, -, rfl⟩ := h
    rfl
  | madd3 rd ra rb rc rk =>
    simp only [Stmt.action, Option.bind_eq_some_iff, Option.map_eq_some_iff] at h
    obtain ⟨_, -, _, -, _, -, _, -, rfl⟩ := h
    rfl

end StmtAction

/-- What a statement that is not held comes to in a build of width `W`: its action, or the reason it stops, in the order
of spec/60_exceptions.md R133 (log 4, log 9). -/
def Stmt.outcome (W : Width) (read : CellName → Option Word) (st : Stmt) : Host.Outcome Action Fault Refusal :=
  if st.fits W then
    if st.writes.Nodup then
      match st.action read with
      | some a => .next a
      | none => .fault .unwrittenCell
    else .fault .destEqualsCarry
  else .refused .operandTooWide

section StmtOutcome
variable {W : Width} {read read' : CellName → Option Word} {st : Stmt}

theorem Stmt.outcome_congr (h : ∀ c ∈ st.reads, read c = read' c) : st.outcome W read = st.outcome W read' := by
  rw [Stmt.outcome, Stmt.outcome, Stmt.action_congr h]

theorem Stmt.outcome_next_iff {a : Action} :
    st.outcome W read = .next a ↔ st.fits W = true ∧ st.writes.Nodup ∧ st.action read = some a := by
  unfold Stmt.outcome
  split
  · split
    · cases st.action read <;> simp_all
    · simp_all
  · simp_all

theorem Stmt.outcome_unwritten {c : CellName} (hfits : st.fits W = true) (hapart : st.writes.Nodup)
    (hc : c ∈ st.reads) (hread : read c = none) : st.outcome W read = .fault .unwrittenCell := by
  rw [Stmt.outcome, if_pos hfits, if_pos hapart, Stmt.action_eq_none_iff.mpr ⟨c, hc, hread⟩]

theorem Stmt.outcome_destEqualsCarry (hfits : st.fits W = true) (hsame : ¬ st.writes.Nodup) :
    st.outcome W read = .fault .destEqualsCarry := by
  rw [Stmt.outcome, if_pos hfits, if_neg hsame]

end StmtOutcome

/-- All that a statement does once it is not held. -/
theorem runStmt_eq (st : Stmt) (s : State) :
    runStmt st s = mapNext (·.apply s) (st.outcome s.cfg.width s.readCell) := by
  unfold runStmt Stmt.outcome
  split
  · cases st with
    | li rd v => rfl
    | mov rd rs => cases h : s.readCell rs <;> simp [Stmt.action, Stmt.writes, mapNext, h, Action.apply]
    | madd2 rd ra rb rk =>
      by_cases hne : rd = rk
      · simp [runMadd2, Stmt.writes, mapNext, hne]
      · have happart : (Stmt.madd2 rd ra rb rk).writes.Nodup := by simpa [Stmt.writes] using hne
        simp only [runMadd2, readOperand_eq, Stmt.action, if_neg hne, if_pos happart]
        obtain _ | a := ra.value s.readCell
        · rfl
        obtain _ | b := rb.value s.readCell
        · rfl
        obtain _ | carryIn := s.readCell rk
        · rfl
        exact issue_eq ..
    | madd3 rd ra rb rc rk =>
      by_cases hne : rd = rk
      · simp [runMadd3, Stmt.writes, mapNext, hne]
      · have happart : (Stmt.madd3 rd ra rb rc rk).writes.Nodup := by simpa [Stmt.writes] using hne
        simp only [runMadd3, readOperand_eq, Stmt.action, if_neg hne, if_pos happart]
        obtain _ | a := ra.value s.readCell
        · rfl
        obtain _ | b := rb.value s.readCell
        · rfl
        obtain _ | addend := rc.value s.readCell
        · rfl
        obtain _ | carryIn := s.readCell rk
        · rfl
        exact issue_eq ..
  · rfl

/-- What a step comes to in the state `s` after the scoreboard's part: its action, or the reason it stops. -/
def stepOutcome (s : State) : Host.Outcome Action Fault Refusal :=
  match s.request with
  | some pins => mapNext .take (requestOutcome s.cfg.width pins)
  | none =>
    match s.program[s.pc]? with
    | none => .next .wait
    | some st => if held s st then .next .wait else st.outcome s.cfg.width s.readCell

section StepOutcome
variable {s : State}

theorem stepOutcome_of_request {pins : List Pin} (hr : s.request = some pins) :
    stepOutcome s = mapNext .take (requestOutcome s.cfg.width pins) := by
  rw [stepOutcome, hr]

theorem stepOutcome_of_no_stmt (hr : s.request = none) (hp : s.program[s.pc]? = none) :
    stepOutcome s = .next .wait := by
  rw [stepOutcome, hr, hp]

variable {st : Stmt}

theorem stepOutcome_of_held (hr : s.request = none) (hp : s.program[s.pc]? = some st) (hheld : held s st = true) :
    stepOutcome s = .next .wait := by
  rw [stepOutcome, hr, hp]
  exact if_pos hheld

theorem stepOutcome_of_stmt (hr : s.request = none) (hp : s.program[s.pc]? = some st) (hfree : held s st = false) :
    stepOutcome s = st.outcome s.cfg.width s.readCell := by
  rw [stepOutcome, hr, hp]
  exact if_neg (Bool.eq_false_iff.mp hfree)

end StepOutcome

/-- A step is the scoreboard's part, and then the action the state it leaves comes to. -/
theorem step_eq (s : State) : step s = mapNext (·.apply (tick s)) (stepOutcome (tick s)) := by
  have hcases := step_cases s
  simp only [← tick_request s, ← tick_program s, ← tick_pc s] at hcases
  obtain ⟨pins, hr, h⟩ | ⟨hr, hp, h⟩ | ⟨st, hr, hp, h⟩ := hcases
  · rw [h, stepOutcome_of_request hr, transact_eq none hr]
    cases requestOutcome (tick s).cfg.width pins <;> rfl
  · rw [h, stepOutcome_of_no_stmt hr hp]
    rfl
  · cases hheld : held (tick s) st with
    | true =>
      rw [h, if_pos hheld, stepOutcome_of_held hr hp hheld]
      rfl
    | false =>
      rw [h, if_neg (Bool.eq_false_iff.mp hheld), stepOutcome_of_stmt hr hp hheld]
      exact runStmt_eq st (tick s)

/-- A step that answers a next state has taken an action. -/
theorem step_next_inv {s t : State} (h : step s = .next t) :
    ∃ a : Action, stepOutcome (tick s) = .next a ∧ t = a.apply (tick s) := by
  rw [step_eq] at h
  obtain ⟨a, ha, rfl⟩ := mapNext_eq_next_iff.mp h
  exact ⟨a, ha, rfl⟩

theorem safeStep_iff {s : State} : SafeStep s ↔ ∃ a, stepOutcome (tick s) = .next a := by
  simp only [SafeStep, step_eq, mapNext_eq_next_iff]
  exact ⟨fun ⟨_, a, ha, _⟩ => ⟨a, ha⟩, fun ⟨a, ha⟩ => ⟨_, a, ha, rfl⟩⟩

end Sys2Proof.Machine
end

section
/-! PROOFS. The scoreboard: what a completion writes, what the transactions in flight will have written once all have
completed, and what its part of a step does (spec/70_reset_and_hazards.md R153, R156; log 12). -/

namespace Sys2Proof.Machine

open State

/-- The value a transaction writes to a cell; none to a cell it does not own (spec/30_encoding.md R67). -/
def written (dest : Option Dest) (r : Response) (x : CellName) : Option Word :=
  match dest with
  | none => none
  | some d => if d.rk = x then some r.carryOut else if d.rd = x then some r.lo else none

theorem written_eq_none_iff {dest : Option Dest} {r : Response} {x : CellName} :
    written dest r x = none ↔ x ∉ destCells dest := by
  cases dest with
  | none => simp [written, destCells]
  | some d =>
    simp only [written, destCells, List.mem_cons, List.not_mem_nil, or_false, not_or]
    split
    · simp_all
    · split <;> simp_all [eq_comm]

theorem readCell_writeBack (dest : Option Dest) (r : Response) (s : State) (x : CellName) :
    (writeBack dest r s).readCell x = (written dest r x).or (s.readCell x) := by
  cases dest with
  | none => rfl
  | some d =>
    rw [readCell_writeBack_some, written]
    split
    · rfl
    · split <;> rfl

theorem readCell_retire (p : Pending) (s : State) (x : CellName) :
    (retire p s).readCell x = (written p.dest p.rsp x).or (s.readCell x) := by
  rw [retire, readCell_writeBack, readCell_driveOutputs]

/-- The transaction `p` has just completed: its outputs are on the ports and in the cells it owned
(spec/20_memory.md R43). -/
def Completed (p : Pending) (s : State) : Prop :=
  s.rsp = some p.rsp ∧ ∀ d ∈ p.dest, s.readCell d.rd = some p.rsp.lo ∧ s.readCell d.rk = some p.rsp.carryOut

theorem retire_completed {p : Pending} (hapart : ∀ d ∈ p.dest, d.rd ≠ d.rk) (s : State) : Completed p (retire p s) := by
  refine ⟨retire_rsp .., fun d hd => ?_⟩
  have hne := hapart d hd
  have hdest : p.dest = some d := hd
  simp [readCell_retire, written, hdest, hne.symm]

/-- The value a cell will have got from transactions in flight when all of them have completed, oldest first. -/
def promised : List Pending → CellName → Option Word
  | [], _ => none
  | p :: fl, x => (promised fl x).or (written p.dest p.rsp x)

theorem promised_append (fl gl : List Pending) (x : CellName) :
    promised (fl ++ gl) x = (promised gl x).or (promised fl x) := by
  induction fl with
  | nil => simp [promised]
  | cons p fl ih => simp [promised, ih, Option.or_assoc]

@[simp] theorem promised_countDown (fl : List Pending) (x : CellName) :
    promised (countDown fl) x = promised fl x := by
  induction fl with
  | nil => rfl
  | cons p fl ih => exact congrArg (Option.or · _) ih

/-- The cells that transactions in flight own are those they will write. -/
theorem promised_eq_none_iff {fl : List Pending} {x : CellName} : promised fl x = none ↔ ownedIn fl x = false := by
  induction fl with
  | nil => simp [promised, ownedIn]
  | cons p fl ih =>
    simp only [promised, Option.or_eq_none_iff, ih, written_eq_none_iff, ownedIn, List.any_cons, Bool.or_eq_false_iff,
      decide_eq_false_iff_not]
    exact and_comm

/-- Of two values, one of which is none, the first is the same in either order. -/
theorem or_comm_of_none {α : Type} {u v : Option α} (h : u = none ∨ v = none) : u.or v = v.or u := by
  obtain rfl | rfl := h <;> simp

/-- A transaction that completes before older ones that own other cells leaves the cells it would have left after
them (spec/70_reset_and_hazards.md R154). -/
theorem promised_overtake {older younger : List Pending} {p : Pending}
    (hapart : ∀ q ∈ older, ∀ c ∈ destCells q.dest, c ∉ destCells p.dest) (x : CellName) :
    (promised (older ++ younger) x).or (written p.dest p.rsp x) = promised (older ++ p :: younger) x := by
  have hone : promised older x = none ∨ written p.dest p.rsp x = none := by
    rw [promised_eq_none_iff, written_eq_none_iff, or_iff_not_imp_right, not_not]
    intro hx
    simp only [ownedIn, List.any_eq_false, decide_eq_true_eq]
    exact fun q hq hc => hapart q hq x hc hx
  rw [promised_append, promised_append, promised, Option.or_assoc, or_comm_of_none hone, Option.or_assoc]

/-- A field that no completion touches is the same after all completions. -/
theorem foldl_retire_field {β : Type} {field : State → β} (h : ∀ p s, field (retire p s) = field s)
    (fl : List Pending) (s : State) : field (fl.foldl (fun s p => retire p s) s) = field s := by
  induction fl generalizing s with
  | nil => rfl
  | cons p fl ih => rw [List.foldl_cons, ih, h]

section Drain
variable (s : State)

@[simp] theorem drain_cfg : (drain s).cfg = s.cfg := foldl_retire_field retire_cfg ..
@[simp] theorem drain_request : (drain s).request = s.request := foldl_retire_field retire_request ..
@[simp] theorem drain_program : (drain s).program = s.program := foldl_retire_field retire_program ..
@[simp] theorem drain_pc : (drain s).pc = s.pc := foldl_retire_field retire_pc ..
@[simp] theorem drain_inFlight : (drain s).inFlight = [] := foldl_retire_field retire_inFlight ..

theorem readCell_drain (x : CellName) : (drain s).readCell x = (promised s.inFlight x).or (s.readCell x) := by
  suffices ∀ fl t, (List.foldl (fun s p => retire p s) t fl).readCell x = (promised fl x).or (t.readCell x) from this ..
  intro fl
  induction fl with
  | nil => exact fun _ => rfl
  | cons p fl ih =>
    intro t
    rw [List.foldl_cons, ih, readCell_retire, promised, Option.or_assoc]

end Drain

/-- A cell that no transaction in flight owns has its last value already. -/
theorem readCell_drain_of_free {s : State} {x : CellName} (h : ownedIn s.inFlight x = false) :
    (drain s).readCell x = s.readCell x := by
  rw [readCell_drain, promised_eq_none_iff.mpr h, Option.none_or]

/-- Nothing completes only where every wait goes on. -/
theorem takeReady_eq_none_iff {fl : List Pending} : takeReady fl = none ↔ ∀ q ∈ fl, q.wait ≠ 0 := by
  induction fl with
  | nil => simp [takeReady]
  | cons p fl ih =>
    unfold takeReady
    split
    · simp_all
    · split <;> simp_all

/-- What the scoreboard's part of a step does: every wait goes down by one, and the oldest transaction whose wait is
over, if there is one, completes (log 12). -/
theorem tick_spec (s : State) :
    ((∀ q ∈ s.inFlight, 1 < q.wait) ∧ tick s = { s with inFlight := countDown s.inFlight }) ∨
    ∃ older p younger, s.inFlight = older ++ p :: younger ∧ (∀ q ∈ older, 1 < q.wait) ∧ p.wait ≤ 1 ∧
      tick s = retire p { s with inFlight := countDown (older ++ younger) } := by
  obtain ⟨hnone, htick⟩ | ⟨p', others, hready, htick⟩ := tick_cases s
  · left
    refine ⟨fun q hq => ?_, htick⟩
    have := takeReady_eq_none_iff.mp hnone _ (List.mem_map_of_mem hq)
    exact Nat.lt_of_sub_ne_zero this
  · right
    obtain ⟨older', younger', hsplit, rfl, hp, holder⟩ := takeReady_split hready
    obtain ⟨older, rest, hfl, rfl, hrest⟩ := List.map_eq_append_iff.mp hsplit
    obtain ⟨p, younger, rfl, rfl, rfl⟩ := List.map_eq_cons_iff.mp hrest
    refine ⟨older, p, younger, hfl, fun q hq => ?_, Nat.sub_eq_zero_iff_le.mp hp, ?_⟩
    · exact Nat.lt_of_sub_ne_zero (holder _ (List.mem_map_of_mem hq))
    · rw [htick, countDown, List.map_append]
      rfl

/-- A completion leaves the cells that all transactions in flight will have left. -/
theorem readCell_drain_tick {s : State} (h : s.Inv) (x : CellName) :
    (drain (tick s)).readCell x = (drain s).readCell x := by
  rw [readCell_drain, readCell_drain]
  obtain ⟨-, htick⟩ | ⟨older, p, younger, hfl, -, -, htick⟩ := tick_spec s
  · rw [htick, promised_countDown]
    rfl
  · have happart : ∀ q ∈ older, ∀ c ∈ destCells q.dest, c ∉ destCells p.dest := fun q hq =>
      (List.pairwise_append.mp (hfl ▸ h.ownersApart)).2.2 q hq p List.mem_cons_self
    rw [htick, retire_inFlight, readCell_retire, promised_countDown, ← Option.or_assoc, promised_overtake happart, hfl]
    rfl

/-- Settles O52: the two cases of `tick_spec`; what a completion shows and writes is `retire_completed`. -/
theorem completionDrivesOutputs : Obligations.CompletionDrivesOutputs := by
  intro s h
  obtain ⟨hwaits, htick⟩ | ⟨older, p, younger, hfl, holder, hp, htick⟩ := tick_spec s
  case inl =>
    rw [htick]
    exact .inl ⟨hwaits, rfl, fun _ => rfl, rfl⟩
  case inr =>
    refine .inr ⟨older, p, younger, hfl, holder, hp, ?_⟩
    have happart := h.destsApart p (hfl ▸ List.mem_append_right _ List.mem_cons_self)
    obtain ⟨hrsp, hcells⟩ := htick ▸ retire_completed happart _
    refine ⟨hrsp, hcells, fun x hx => ?_, htick ▸ retire_inFlight ..⟩
    rw [htick, readCell_retire, written_eq_none_iff.mpr hx, Option.none_or]
    rfl

end Sys2Proof.Machine
end

section
/-! PROOFS. The invariant: one lemma for each operation on the state, then for a tick, for each action of a step, and for
the step (spec/10_state.md R22, R30; spec/70_reset_and_hazards.md R153, R154). -/

namespace Sys2Proof.Machine

open State

section Keeps
variable {s : State}

theorem State.Inv.advance (h : s.Inv) : s.advance.Inv := { h with }

theorem State.Inv.sampled (h : s.Inv) : s.sampled.Inv := { h with requestLength := nofun }

theorem State.Inv.present (h : s.Inv) {pins : List Pin} (hpins : pins.length = txnBits s.cfg.width) :
    (s.present pins).Inv :=
  { h with requestLength := fun _ hp => Option.some.inj hp ▸ hpins }

theorem State.Inv.driveOutputs (h : s.Inv) {r : Response} (hr : r.Fits s.cfg.width) : (s.driveOutputs r).Inv :=
  { h with rspFits := fun _ hr' => Option.some.inj hr' ▸ hr }

theorem State.Inv.writeCell (h : s.Inv) (c : CellName) {v : Word} (hv : v.Fits s.cfg.width.bits) :
    (s.writeCell c v).Inv :=
  { h with cellsRising := insertCell_rising c v h.cellsRising, cellsFit := insertCell_fit h.cellsFit hv }

theorem State.Inv.writeBack (h : s.Inv) (dest : Option Dest) {r : Response} (hr : r.Fits s.cfg.width) :
    (writeBack dest r s).Inv := by
  cases dest with
  | none => exact h
  | some d => exact (h.writeCell d.rd hr.1).writeCell d.rk hr.2

theorem State.Inv.retire (h : s.Inv) {p : Pending} (hp : p.rsp.Fits s.cfg.width) : (retire p s).Inv :=
  (h.driveOutputs hp).writeBack p.dest hp

/-- Waiting, and dropping transactions, keep the scoreboard in order. -/
theorem State.Inv.countDown (h : s.Inv) {fl : List Pending} (hsub : fl.Sublist s.inFlight) :
    ({ s with inFlight := countDown fl } : State).Inv :=
  { h with
    pendingFit := List.forall_mem_map.mpr fun p hp => h.pendingFit p (hsub.subset hp)
    destsApart := List.forall_mem_map.mpr fun p hp => h.destsApart p (hsub.subset hp)
    ownersApart := List.pairwise_map.mpr (h.ownersApart.sublist hsub)
    untimedSettled := fun hl => congrArg Machine.countDown (List.sublist_nil.mp (h.untimedSettled hl ▸ hsub)) }

theorem tick_keeps_inv (h : s.Inv) : (tick s).Inv := by
  obtain ⟨-, htick⟩ | ⟨older, p, younger, hfl, -, -, htick⟩ := tick_spec s
  · exact htick ▸ h.countDown (List.Sublist.refl _)
  · have hsub : (older ++ younger).Sublist s.inFlight := hfl ▸ (List.sublist_cons_self p younger).append_left older
    have hp : p.rsp.Fits s.cfg.width := h.pendingFit p (hfl ▸ List.mem_append_right _ List.mem_cons_self)
    exact htick ▸ (h.countDown hsub).retire hp

/-- A transaction of two free cells joins the scoreboard in order. -/
theorem taken_keeps_inv (h : s.Inv) {dest : Option Dest} {r : Response} (hr : r.Fits s.cfg.width)
    (hapart : ∀ d ∈ dest, d.rd ≠ d.rk) (hfree : ∀ c ∈ destCells dest, ownedIn s.inFlight c = false) :
    (taken dest r s).Inv := by
  by_cases hl : s.cfg.latency = 0
  · rw [taken_untimed hl]
    exact (h.sampled.driveOutputs hr).writeBack dest hr
  · have howners : ∀ q ∈ s.inFlight, ∀ c ∈ destCells q.dest, c ∉ destCells dest := by
      intro q hq c hcq hc
      have := List.any_eq_false.mp (hfree c hc) q hq
      exact this (decide_eq_true hcq)
    rw [taken_timed hl]
    exact
      { h.sampled with
        pendingFit := List.forall_mem_append.mpr ⟨h.pendingFit, by simpa using hr⟩
        destsApart := List.forall_mem_append.mpr ⟨h.destsApart, by simpa using hapart⟩
        ownersApart := List.pairwise_append.mpr ⟨h.ownersApart, List.pairwise_singleton .., by simpa using howners⟩
        untimedSettled := fun hl' => absurd hl' hl }

end Keeps

/-- A value that is written at once is a Word of the build. -/
def Action.valueFits (W : Width) : Action → Prop
  | write _ v => v.Fits W.bits
  | _ => True

/-- An action that writes different free cells, and only Words to them, keeps the invariant. -/
theorem Action.apply_keeps_inv {a : Action} {s : State} (h : s.Inv) (hfits : a.valueFits s.cfg.width)
    (hapart : a.writes.Nodup) (hfree : ∀ c ∈ a.writes, ownedIn s.inFlight c = false) : (a.apply s).Inv := by
  cases a with
  | wait => exact h
  | take i => exact taken_keeps_inv h (respond_fits ..) nofun nofun
  | write rd v => exact (h.writeCell rd hfits).advance
  | issue rd rk i =>
    have hne : rd ≠ rk := by simpa [Action.writes] using hapart
    exact taken_keeps_inv (h.advance.present (length_encode ..)) (respond_fits ..)
      (fun d hd => Option.some.inj hd ▸ hne) hfree

section Outcome
variable {s : State} {a : Action}

/-- The action of a step comes from a request, or is to wait, or is that of a statement that is not held. -/
theorem stepOutcome_next_inv (h : stepOutcome s = .next a) :
    (∃ pins i, s.request = some pins ∧ decode s.cfg.width pins = .ok i ∧ a = .take i) ∨
    (s.request = none ∧ a = .wait) ∨
    ∃ st, s.request = none ∧ s.program[s.pc]? = some st ∧ held s st = false ∧ st.fits s.cfg.width = true ∧
      st.writes.Nodup ∧ st.action s.readCell = some a := by
  cases hr : s.request with
  | some pins =>
    rw [stepOutcome_of_request hr, mapNext_eq_next_iff] at h
    obtain ⟨i, hi, rfl⟩ := h
    exact .inl ⟨pins, i, rfl, requestOutcome_eq_next_iff.mp hi, rfl⟩
  | none =>
    refine .inr ?_
    cases hp : s.program[s.pc]? with
    | none =>
      rw [stepOutcome_of_no_stmt hr hp] at h
      cases h
      exact .inl ⟨rfl, rfl⟩
    | some st =>
      cases hheld : held s st with
      | true =>
        rw [stepOutcome_of_held hr hp hheld] at h
        cases h
        exact .inl ⟨rfl, rfl⟩
      | false =>
        rw [stepOutcome_of_stmt hr hp hheld, Stmt.outcome_next_iff] at h
        exact .inr ⟨st, rfl, rfl, hheld, h⟩

/-- A statement that is not held names no owned cell. -/
theorem not_owned_of_not_held {st : Stmt} (h : held s st = false) {c : CellName} (hc : c ∈ st.reads ++ st.writes) :
    ownedIn s.inFlight c = false :=
  Bool.eq_false_iff.mpr (List.any_eq_false.mp h c hc)

/-- The action of a step writes different cells that no transaction in flight owns (log 13). -/
theorem stepOutcome_writes (h : stepOutcome s = .next a) :
    a.writes.Nodup ∧ ∀ c ∈ a.writes, ownedIn s.inFlight c = false := by
  obtain ⟨_, _, -, -, rfl⟩ | ⟨-, rfl⟩ | ⟨st, -, -, hfree, -, hapart, ha⟩ := stepOutcome_next_inv h
  · exact ⟨List.nodup_nil, nofun⟩
  · exact ⟨List.nodup_nil, nofun⟩
  · rw [Stmt.action_writes ha]
    exact ⟨hapart, fun c hc => not_owned_of_not_held hfree (List.mem_append_right _ hc)⟩

theorem State.Inv.readCell_fits (h : s.Inv) {c : CellName} {v : Word} (hv : s.readCell c = some v) :
    v.Fits s.cfg.width.bits := h.cellsFit _ (lookupCell_mem hv)

/-- The action of a step writes an immediate of the build or the value of a cell. -/
theorem stepOutcome_valueFits (hinv : s.Inv) (h : stepOutcome s = .next a) : a.valueFits s.cfg.width := by
  obtain ⟨_, _, -, -, rfl⟩ | ⟨-, rfl⟩ | ⟨st, -, -, -, hfits, -, ha⟩ := stepOutcome_next_inv h
  · trivial
  · trivial
  · cases st with
    | li rd v =>
      cases ha
      exact (of_decide_eq_true hfits : v.Fits s.cfg.width.bits)
    | mov rd rs =>
      obtain ⟨v, hv, rfl⟩ := Option.map_eq_some_iff.mp ha
      exact hinv.readCell_fits hv
    | madd2 rd ra rb rk =>
      simp only [Stmt.action, Option.bind_eq_some_iff, Option.map_eq_some_iff] at ha
      obtain ⟨_, -, _, -, _, -, rfl⟩ := ha
      trivial
    | madd3 rd ra rb rc rk =>
      simp only [Stmt.action, Option.bind_eq_some_iff, Option.map_eq_some_iff] at ha
      obtain ⟨_, -, _, -, _, -, _, -, rfl⟩ := ha
      trivial

end Outcome

/-- Settles O33: a tick keeps the invariant, and so does the action that the state it leaves comes to. -/
theorem stepKeepsInv : Obligations.StepKeepsInv := by
  intro s t h hstep
  obtain ⟨a, ha, rfl⟩ := step_next_inv hstep
  have htick := tick_keeps_inv h
  obtain ⟨hapart, hfree⟩ := stepOutcome_writes ha
  exact Action.apply_keeps_inv htick (stepOutcome_valueFits htick ha) hapart hfree

/-- Settles O32: at reset there is nothing the invariant could fail of. -/
theorem resetSatisfiesInv : Obligations.ResetSatisfiesInv := fun _ =>
  { cellsRising := List.Pairwise.nil
    cellsFit := nofun
    rspFits := nofun
    pendingFit := nofun
    destsApart := nofun
    ownersApart := List.Pairwise.nil
    requestLength := nofun
    untimedSettled := fun _ => rfl }

end Sys2Proof.Machine
end

section
/-! PROOFS. A timed build refines the combinational build: what an action comes to and what it writes is the same in the
machine that has completed all it has in flight (spec/70_reset_and_hazards.md R153, R154; spec/00_scope.md R14). -/

namespace Sys2Proof.Machine

open State

/-- The value an action gives a cell in a build `c`; none to a cell it does not write. -/
def Action.effect (c : Config) : Action → CellName → Option Word
  | wait, _ => none
  | take _, _ => none
  | write rd v, x => if rd = x then some v else none
  | issue rd rk i, x => written (some ⟨rd, rk⟩) (respond c i) x

theorem Action.effect_eq_none_iff {c : Config} {a : Action} {x : CellName} : a.effect c x = none ↔ x ∉ a.writes := by
  cases a with
  | wait => simp [effect, writes]
  | take i => simp [effect, writes]
  | write rd v => simp [effect, writes, eq_comm]
  | issue rd rk i => exact written_eq_none_iff (dest := some ⟨rd, rk⟩) (r := respond c i)

theorem Action.readCell_apply_write (rd : CellName) (v : Word) (s : State) (x : CellName) :
    ((write rd v).apply s).readCell x = ((write rd v).effect s.cfg x).or (s.readCell x) := by
  rw [apply, readCell_advance, readCell_writeCell, effect]
  split <;> rfl

/-- In a combinational build an action has its effect at once. -/
theorem Action.readCell_apply_untimed (a : Action) {s : State} (hl : s.cfg.latency = 0) (x : CellName) :
    (a.apply s).readCell x = (a.effect s.cfg x).or (s.readCell x) := by
  cases a with
  | wait => rfl
  | take i =>
    rw [apply, taken_untimed hl]
    rfl
  | write rd v => exact readCell_apply_write rd v s x
  | issue rd rk i =>
    rw [apply, issued, taken_untimed (by exact hl), readCell_writeBack]
    rfl

/-- What is promised to a cell is got last; a value written to a cell to which nothing is promised is kept. -/
theorem readCell_drain_of_free_write {fl : List Pending} {x : CellName} {u v : Option Word}
    (h : u ≠ none → ownedIn fl x = false) : (promised fl x).or (u.or v) = u.or ((promised fl x).or v) := by
  have hone : promised fl x = none ∨ u = none := by
    rw [or_iff_not_imp_right, promised_eq_none_iff]
    exact h
  rw [← Option.or_assoc, or_comm_of_none hone, Option.or_assoc]

/-- A transaction taken for free cells gives them its outputs in the end, in any build. -/
theorem readCell_drain_taken {dest : Option Dest} {r : Response} {s : State} {x : CellName}
    (hfree : x ∈ destCells dest → ownedIn s.inFlight x = false) :
    (drain (taken dest r s)).readCell x = (written dest r x).or ((drain s).readCell x) := by
  rw [readCell_drain, readCell_drain]
  by_cases hl : s.cfg.latency = 0
  · rw [taken_untimed hl, writeBack_inFlight, readCell_writeBack]
    exact readCell_drain_of_free_write fun h => hfree (not_not.mp (mt written_eq_none_iff.mpr h))
  · rw [taken_timed hl]
    simp only [promised_append, promised, Option.none_or, Option.or_assoc]
    rfl

/-- An action that writes free cells has its effect in the end, in any build. -/
theorem Action.readCell_drain_apply {a : Action} {s : State} (hfree : ∀ c ∈ a.writes, ownedIn s.inFlight c = false)
    (x : CellName) : (drain (a.apply s)).readCell x = (a.effect s.cfg x).or ((drain s).readCell x) := by
  cases a with
  | wait => rfl
  | take i => exact readCell_drain_taken nofun
  | write rd v =>
    rw [readCell_drain, readCell_drain, readCell_apply_write]
    exact readCell_drain_of_free_write fun h => hfree x (not_not.mp (mt effect_eq_none_iff.mpr h))
  | issue rd rk i =>
    rw [apply, issued, readCell_drain_taken (hfree x), readCell_drain, readCell_drain]
    rfl

/-- The response does not depend on LATENCY. -/
theorem respond_latency (c : Config) (l : Nat) (i : Instr) : respond { c with latency := l } i = respond c i := by
  cases i <;> rfl

theorem Action.effect_latency (c : Config) (l : Nat) (a : Action) : a.effect { c with latency := l } = a.effect c := by
  cases a <;> rfl

section Untimed
variable (s : State)

@[simp] theorem untimed_cfg : (untimed s).cfg = { s.cfg with latency := 0 } := rfl
@[simp] theorem untimed_request : (untimed s).request = s.request := rfl
@[simp] theorem untimed_program : (untimed s).program = s.program := rfl
@[simp] theorem untimed_pc : (untimed s).pc = s.pc := rfl
@[simp] theorem readCell_untimed (x : CellName) : (untimed s).readCell x = s.readCell x := rfl

end Untimed

theorem held_of_settled {s : State} (h : s.inFlight = []) (st : Stmt) : held s st = false :=
  List.any_eq_false.mpr fun _ _ => by simp [h, ownedIn]

/-- The combinational machine `u` that reads the free cells of `s` as `s` does comes to the same action or reason as `s`,
unless `s` waits. -/
theorem stepOutcome_untimed {s u : State} (hwidth : u.cfg.width = s.cfg.width) (hrequest : u.request = s.request)
    (hprogram : u.program = s.program) (hpc : u.pc = s.pc) (hsettled : u.inFlight = [])
    (hread : ∀ c, ownedIn s.inFlight c = false → u.readCell c = s.readCell c) :
    (s.request = none ∧ stepOutcome s = .next .wait) ∨ stepOutcome u = stepOutcome s := by
  cases hr : s.request with
  | some pins => rw [stepOutcome_of_request (hrequest.trans hr), stepOutcome_of_request hr, hwidth]; exact .inr rfl
  | none =>
    cases hp : s.program[s.pc]? with
    | none => exact .inl ⟨rfl, stepOutcome_of_no_stmt hr hp⟩
    | some st =>
      cases hheld : held s st with
      | true => exact .inl ⟨rfl, stepOutcome_of_held hr hp hheld⟩
      | false =>
        right
        have hp' : u.program[u.pc]? = some st := by rw [hprogram, hpc, hp]
        rw [stepOutcome_of_stmt (hrequest.trans hr) hp' (held_of_settled hsettled st),
          stepOutcome_of_stmt hr hp hheld, hwidth]
        exact Stmt.outcome_congr fun c hc =>
          hread c (not_owned_of_not_held hheld (List.mem_append_left _ hc))

section Refinement
variable {s : State}

theorem tick_untimed_drain : tick (untimed (drain s)) = untimed (drain s) := tick_of_settled (drain_inFlight s)

/-- The combinational machine comes to the same as the timed one after its tick, unless that one waits. -/
theorem stepOutcome_untimed_drain (h : s.Inv) :
    ((tick s).request = none ∧ stepOutcome (tick s) = .next .wait) ∨
      stepOutcome (tick (untimed (drain s))) = stepOutcome (tick s) := by
  rw [tick_untimed_drain]
  exact stepOutcome_untimed (by simp) (by simp) (by simp) (by simp) (drain_inFlight s) fun c hfree => by
    rw [readCell_untimed, ← readCell_drain_tick h, readCell_drain_of_free hfree]

/-- The statement index and the request an action leaves depend on those it finds alone. -/
theorem Action.apply_pc_request (a : Action) {s u : State} (hpc : u.pc = s.pc) (hrequest : u.request = s.request) :
    (a.apply u).pc = (a.apply s).pc ∧ (a.apply u).request = (a.apply s).request := by
  cases a <;> simp [apply, issued, hpc, hrequest]

/-- A taken request answers a combinational machine `u` on its ports, and a timed one from its scoreboard. -/
theorem taken_rsp_refines {dest : Option Dest} {r : Response} {s u : State} (hu : u.cfg.latency = 0) :
    (s.cfg.latency = 0 ∧ (taken dest r u).rsp = (taken dest r s).rsp) ∨
      ∃ p, (taken dest r s).inFlight = s.inFlight ++ [p] ∧ (taken dest r u).rsp = some p.rsp := by
  rw [taken_untimed hu]
  by_cases hl : s.cfg.latency = 0
  · exact .inl ⟨hl, by simp [taken_untimed hl]⟩
  · exact .inr ⟨_, by rw [taken_timed hl], by simp⟩

/-- What an action shows on the ports of a combinational machine `u` is what it shows in `s` at once or once it
completes; an action with no transaction leaves the ports and the scoreboard. -/
theorem Action.apply_rsp_refines (a : Action) {s u : State} (hu : u.cfg = { s.cfg with latency := 0 }) :
    (s.cfg.latency = 0 ∧ (a.apply u).rsp = (a.apply s).rsp) ∨
      (∃ p, (a.apply s).inFlight = s.inFlight ++ [p] ∧ (a.apply u).rsp = some p.rsp) ∨
      ((∀ i, a ≠ .take i) ∧ (a.apply s).inFlight = s.inFlight ∧ (a.apply s).rsp = s.rsp ∧
        (a.apply u).rsp = u.rsp) := by
  have hl : u.cfg.latency = 0 := hu ▸ rfl
  cases a with
  | wait => exact .inr (.inr ⟨nofun, rfl, rfl, rfl⟩)
  | take i =>
    simp only [apply, hu, respond_latency]
    exact (taken_rsp_refines hl).imp_right .inl
  | write rd v => exact .inr (.inr ⟨nofun, rfl, rfl, rfl⟩)
  | issue rd rk i =>
    simp only [apply, issued, hu, respond_latency]
    exact (taken_rsp_refines (s := s.advance.present _) (u := u.advance.present _) hl).imp_right .inl

end Refinement

/-- Settles O50: where the timed machine does not wait, both machines take one action (`stepOutcome_untimed_drain`), whose
effect on the cells and whose outputs are the same. -/
theorem timedBuildRefinesUntimed : Obligations.TimedBuildRefinesUntimed := by
  intro s h
  have hsame := stepOutcome_untimed_drain h
  refine ⟨fun t hstep => ?next, fun f hstep => ?fault, fun r hstep => ?refused⟩
  case next =>
    obtain ⟨a, ha, rfl⟩ := step_next_inv hstep
    have hcells (x : CellName) : (drain (a.apply (tick s))).readCell x =
        (a.effect s.cfg x).or ((drain s).readCell x) := by
      rw [Action.readCell_drain_apply (stepOutcome_writes ha).2, tick_cfg, readCell_drain_tick h]
    rcases hsame with ⟨-, hwait⟩ | hsame
    · obtain rfl : a = .wait := Host.Outcome.next.inj (ha.symm.trans hwait)
      exact .inl ⟨tick_pc s, tick_request s, hcells⟩
    · right
      have hcfg : (untimed (drain s)).cfg = { (tick s).cfg with latency := 0 } := by simp
      obtain ⟨hpc, hrequest⟩ := a.apply_pc_request (s := tick s) (u := untimed (drain s)) (by simp) (by simp)
      refine ⟨a.apply (untimed (drain s)), ?step, hpc, hrequest, fun x => ?cells, ?outputs⟩
      case step => rw [step_eq, hsame, ha, tick_untimed_drain]; rfl
      case cells =>
        rw [hcells, a.readCell_apply_untimed rfl, readCell_untimed, untimed_cfg, drain_cfg, Action.effect_latency]
      case outputs =>
        rw [← tick_cfg]
        refine (a.apply_rsp_refines hcfg).imp_right (.imp_right fun ⟨hnot, hfl, hrsp, hu⟩ => ⟨?_, hfl, hrsp, hu⟩)
        rw [← tick_request]
        obtain ⟨_, i, -, -, rfl⟩ | ⟨hr, -⟩ | ⟨_, hr, -⟩ := stepOutcome_next_inv ha
        · exact absurd rfl (hnot i)
        · exact hr
        · exact hr
  case fault =>
    rw [step_eq, mapNext_eq_fault_iff] at hstep ⊢
    rcases hsame with ⟨-, hwait⟩ | hsame
    · exact absurd (hstep.symm.trans hwait) nofun
    · exact hsame.trans hstep
  case refused =>
    rw [step_eq, mapNext_eq_refused_iff] at hstep ⊢
    rcases hsame with ⟨-, hwait⟩ | hsame
    · exact absurd (hstep.symm.trans hwait) nofun
    · exact hsame.trans hstep

end Sys2Proof.Machine
end

section
/-! PROOFS. The block as a whole, and requests taken from the pins (spec/10_state.md R20; spec/30_encoding.md R64;
spec/41_datapath.md R101; spec/60_exceptions.md R130, R133; spec/70_reset_and_hazards.md R150 to R153). -/

namespace Sys2Proof.Machine

open State

/-- Settles O12: a well-formed transaction drives the outputs that show its exact sum, which reads nothing of the state
but the width. -/
theorem outputsDependOnInputsAlone : Obligations.OutputsDependOnInputsAlone := by
  intro s s' i hwidth hwf
  have h' : exec i s' = .next (s'.driveOutputs (sumResponse s'.cfg.width (exactSum i))) :=
    exec_eq_sumResponse (hwidth ▸ hwf)
  exact ⟨_, exec_eq_sumResponse hwf, hwidth ▸ h'⟩

/-- Settles O13: `exec` has the two cases of `exec_eq`. -/
theorem tooWideOperandIsRefused : Obligations.TooWideOperandIsRefused := by
  intro i s
  rw [exec_eq]
  cases i.wf s.cfg.width <;> simp

theorem hasNativeDW_iff (c : Config) : c.hasNativeDW = true ↔
    c.width = .w8 ∨ c.width = .w16 ∨ c.width = .w32 ∨ (c.width = .w64 ∧ c.hasNative128 = true) := by
  unfold Config.hasNativeDW
  cases c.width <;> simp

theorem strategy_eq_fast {c : Config} (h : c.hasNativeDW = true ∧ c.forceFallback = false) : c.strategy = .fast :=
  if_pos (by simp [h])

theorem strategy_eq_fallback {c : Config} (h : ¬ (c.hasNativeDW = true ∧ c.forceFallback = false)) :
    c.strategy = .fallback :=
  if_neg (by simpa using h)

/-- Settles O27. -/
theorem strategySelection : Obligations.StrategySelection := fun c =>
  ⟨hasNativeDW_iff c, strategy_eq_fast, strategy_eq_fallback⟩

/-- Settles O31: each field of the reset state. -/
theorem resetHoldsNothing : Obligations.ResetHoldsNothing := fun c =>
  ⟨resetOf_cfg c, resetOf_request c, resetOf_rsp c, fun _ => rfl, resetOf_inFlight c, rfl⟩

/-- Settles O29: no action writes the build, and neither does a tick. -/
theorem noStepWritesTheBuild : Obligations.NoStepWritesTheBuild := by
  intro s t h
  obtain ⟨a, -, rfl⟩ := step_next_inv h
  have hcfg : (a.apply (tick s)).cfg = s.cfg := by rw [Action.apply_cfg, tick_cfg]
  exact ⟨hcfg, congrArg Config.strategy hcfg⟩

theorem Action.apply_pc (a : Action) (s : State) : (a.apply s).pc = s.pc ∨ (a.apply s).pc = s.pc + 1 := by
  cases a <;> simp [apply, issued]

/-- Settles O30: no action writes the program or moves the statement index but by one. -/
theorem statementIndexOnlyMovesForward : Obligations.StatementIndexOnlyMovesForward := by
  intro s t h
  obtain ⟨a, -, rfl⟩ := step_next_inv h
  refine ⟨?_, ?_⟩
  · rw [Action.apply_program, tick_program]
  · rw [← tick_pc s]
    exact a.apply_pc (tick s)

section Request
variable {s : State} {pins : List Pin}

/-- What a step comes to where a request is presented (log 21). -/
theorem stepOutcome_tick_of_request (hr : s.request = some pins) :
    stepOutcome (tick s) = mapNext .take (requestOutcome s.cfg.width pins) := by
  rw [stepOutcome_of_request ((tick_request s).trans hr), tick_cfg]

theorem step_of_decode {i : Instr} (hr : s.request = some pins) (hd : decode s.cfg.width pins = .ok i) :
    step s = .next (taken none (respond s.cfg i) (tick s)) := by
  rw [step_eq, stepOutcome_tick_of_request hr, requestOutcome_eq_next_iff.mpr hd, ← tick_cfg s]
  rfl

/-- Settles O37: the fault of a step that takes a request is that of its pins. -/
theorem undrivenInputFaults : Obligations.UndrivenInputFaults := by
  intro s pins hr hlength
  rw [step_eq, mapNext_eq_fault_iff, stepOutcome_tick_of_request hr, mapNext_eq_fault_iff,
    requestOutcome_fault_iff hlength]

/-- Settles O34: `exec` of the well-formed instruction on the pins drives its response, and `settle` takes it from there. -/
theorem stepRunsDecodedRequest : Obligations.StepRunsDecodedRequest := by
  intro s pins i hr hd
  have hexec : exec i (tick s).sampled = .next ((tick s).sampled.driveOutputs (respond (tick s).cfg i)) :=
    exec_of_wf (by simpa using decode_ok_wf hd)
  rw [step_of_decode hr hd, hexec, tick_cfg, taken]

/-- Settles O18: definite pins have a value, an undriven one has none, and MADD2's response does not read the addend. -/
theorem everyDefiniteRequestIsOneOperation : Obligations.EveryDefiniteRequestIsOneOperation := by
  refine ⟨fun W pins hlength hdefinite => ?definite, fun s pins hr hlength hundriven => ?undriven,
    fun c a b x y carryIn hx hy => ?addend⟩
  case definite =>
    obtain ⟨i, hi⟩ := decode_definite hlength hdefinite
    exact ⟨i, hi, decode_ok_wf hi⟩
  case undriven =>
    exact ⟨decode_undriven hlength hundriven, (undrivenInputFaults s pins hr hlength).mpr hundriven⟩
  case addend => exact ⟨decodeOfEncode _ _ hx, decodeOfEncode _ _ hy, respond_madd2_addend c a b x y carryIn⟩

/-- A settled combinational build answers a request with its exact outputs and changes nothing else. -/
theorem taken_none_untimed {r : Response} (hl : s.cfg.latency = 0) :
    taken none r s = { s with request := none, rsp := some r } := taken_untimed hl

/-- Settles O35: definite pins decode, and a decoded request completes its step. -/
theorem definiteRequestCompletes : Obligations.DefiniteRequestCompletes := by
  intro s pins hr hlength hdefinite
  obtain ⟨i, hi⟩ := decode_definite hlength hdefinite
  have hstep := step_of_decode hr hi
  refine ⟨i, hi, ⟨_, hstep⟩, fun hl hfl => ?_⟩
  rw [hstep, tick_of_settled hfl, taken_none_untimed hl, respond_eq_sumResponse (decode_ok_wf hi)]

/-- Settles O36: a timed build puts the request it takes on the scoreboard. -/
theorem timedRequestIsInFlight : Obligations.TimedRequestIsInFlight := by
  intro s pins i hr hd hl
  have hstep := step_of_decode hr hd
  rw [taken_timed (by simpa using hl), respond_eq_sumResponse (decode_ok_wf hd)] at hstep
  exact ⟨_, _, hstep, rfl, rfl, rfl, rfl, tick_cfg s, tick_program s, tick_pc s⟩

end Request

end Sys2Proof.Machine
end

section
/-! PROOFS. The caller harness: the statements one by one, what holds them, and what stops a step
(spec/30_encoding.md R67, R68; spec/60_exceptions.md R130, R133; spec/70_reset_and_hazards.md R153). -/

namespace Sys2Proof.Machine

open State

section Statement
variable {s : State} {st : Stmt}

/-- What a step comes to at a statement that is not held. -/
theorem stepOutcome_tick_of_stmt (hr : s.request = none) (hp : s.program[s.pc]? = some st)
    (hfree : held (tick s) st = false) :
    stepOutcome (tick s) = st.outcome s.cfg.width (tick s).readCell := by
  rw [stepOutcome_of_stmt ((tick_request s).trans hr) (by rw [tick_program, tick_pc, hp]) hfree, tick_cfg]

theorem step_of_stmt (hr : s.request = none) (hp : s.program[s.pc]? = some st) (hfree : held (tick s) st = false) :
    step s = mapNext (·.apply (tick s)) (st.outcome s.cfg.width (tick s).readCell) := by
  rw [step_eq, stepOutcome_tick_of_stmt hr hp hfree]

/-- With nothing in flight no statement is held, and a step is its statement. -/
theorem step_of_stmt_settled (hr : s.request = none) (hfl : s.inFlight = []) (hp : s.program[s.pc]? = some st) :
    step s = mapNext (·.apply s) (st.outcome s.cfg.width s.readCell) := by
  have htick := tick_of_settled hfl
  rw [step_of_stmt hr hp (by rw [htick]; exact held_of_settled hfl st), htick]

/-- Settles O43. -/
theorem unwrittenCellFaults : Obligations.UnwrittenCellFaults := by
  intro s st c hr hp hfree hfits hapart hc hread
  rw [step_of_stmt hr hp hfree, Stmt.outcome_unwritten hfits hapart hc hread, mapNext]

/-- Settles O44: the destinations of such a statement are one cell twice. -/
theorem destEqualsCarryFaults : Obligations.DestEqualsCarryFaults := by
  intro s r ra rb rc st hst hr hp hfree hfits
  have hsame : ¬ st.writes.Nodup := by rcases hst with rfl | rfl <;> simp [Stmt.writes]
  rw [step_of_stmt hr hp hfree, Stmt.outcome_destEqualsCarry hfits hsame, mapNext]

/-- Settles O46: nothing completes, and the step is to wait. -/
theorem nothingToDoChangesNothing : Obligations.NothingToDoChangesNothing := by
  intro s hr hp hfl
  rw [step_eq, tick_of_settled hfl, stepOutcome_of_no_stmt hr hp]
  rfl

theorem held_of_owned {c : CellName} (hc : c ∈ st.reads ++ st.writes) (howned : ownedIn s.inFlight c = true) :
    held s st = true :=
  List.any_eq_true.mpr ⟨c, hc, howned⟩

/-- What a step comes to at a statement that is held. -/
theorem stepOutcome_tick_of_held (hr : s.request = none) (hp : s.program[s.pc]? = some st)
    (hheld : held (tick s) st = true) : stepOutcome (tick s) = .next .wait :=
  stepOutcome_of_held ((tick_request s).trans hr) (by rw [tick_program, tick_pc, hp]) hheld

/-- Settles O47: the statement is held, and the step is to wait. -/
theorem ownedCellHoldsTheStatement : Obligations.OwnedCellHoldsTheStatement := by
  intro s st c hr hp hc howned
  refine ⟨?_, tick_pc s, tick_program s⟩
  rw [step_eq, stepOutcome_tick_of_held hr hp (held_of_owned hc howned)]
  rfl

/-- Whether a statement that is not held is safe. -/
theorem Stmt.outcome_safe_iff {W : Width} {read : CellName → Option Word} :
    (∃ a, st.outcome W read = .next a) ↔
      st.fits W = true ∧ st.writes.Nodup ∧ ∀ c ∈ st.reads, read c ≠ none := by
  have hreads : (∃ a, st.action read = some a) ↔ ∀ c ∈ st.reads, read c ≠ none := by
    rw [← Option.ne_none_iff_exists', Ne, Stmt.action_eq_none_iff]
    push Not
    rfl
  simp only [Stmt.outcome_next_iff, exists_and_left, hreads]

/-- Settles O45: the three things a step can come to: a request, no statement, a statement (held or not). -/
theorem nothingElseStopsAStep : Obligations.NothingElseStopsAStep := by
  intro s h
  simp only [safeStep_iff]
  refine ⟨fun pins hr => ?request, fun hr hp => ?no_stmt, fun st hr hp => ?stmt⟩
  case request =>
    rw [stepOutcome_tick_of_request hr, ← requestOutcome_next_iff (h.requestLength pins hr)]
    simp only [mapNext_eq_next_iff]
    exact ⟨fun ⟨_, i, hi, _⟩ => ⟨i, hi⟩, fun ⟨i, hi⟩ => ⟨_, i, hi, rfl⟩⟩
  case no_stmt =>
    exact ⟨_, stepOutcome_of_no_stmt ((tick_request s).trans hr) (by rw [tick_program, tick_pc, hp])⟩
  case stmt =>
    cases hheld : held (tick s) st with
    | true => simp [stepOutcome_tick_of_held hr hp hheld]
    | false => simp only [stepOutcome_tick_of_stmt hr hp hheld, Stmt.outcome_safe_iff, Bool.false_eq_true, false_or]

/-- Settles O38: the action of `LI` is to write its value. -/
theorem liWritesItsCell : Obligations.LiWritesItsCell := by
  intro s rd v hr hfl hp hv
  have hout : (Stmt.li rd v).outcome s.cfg.width s.readCell = .next (.write rd v) :=
    Stmt.outcome_next_iff.mpr ⟨decide_eq_true hv, List.nodup_singleton rd, rfl⟩
  refine ⟨(s.writeCell rd v).advance, ?_, rfl, fun x => ?_, rfl, hr, rfl, rfl, hfl⟩
  · rw [step_of_stmt_settled hr hfl hp, hout]
    rfl
  · simp [eq_comm]

/-- Settles O39: the action of `MOV` is to write the value it reads. -/
theorem movCopiesACell : Obligations.MovCopiesACell := by
  intro s rd rs hr hfl hp
  have happart : (Stmt.mov rd rs).writes.Nodup := List.nodup_singleton rd
  rw [step_of_stmt_settled hr hfl hp]
  refine ⟨fun v hv => ⟨(s.writeCell rd v).advance, ?_, rfl, fun x => ?_, rfl, hr, rfl, rfl, hfl⟩, fun hread => ?_⟩
  · have hout : (Stmt.mov rd rs).outcome s.cfg.width s.readCell = .next (.write rd v) :=
      Stmt.outcome_next_iff.mpr ⟨rfl, happart, by rw [Stmt.action, hv, Option.map_some]⟩
    rw [hout]
    rfl
  · simp [eq_comm]
  · rw [Stmt.outcome_unwritten rfl happart List.mem_cons_self hread, mapNext]

section Madd
variable {rd rk : CellName} {ra rb rc : Operand} {a b addend carryIn : Word} {W : Width}

/-- A readable MADD2 with two destinations comes to the issue of its transaction, with addend 0 (spec/10_state.md R24). -/
theorem madd2_outcome (hne : rd ≠ rk) (hfits : (Stmt.madd2 rd ra rb rk).fits W = true)
    (ha : readOperand s ra = some a) (hb : readOperand s rb = some b) (hk : s.readCell rk = some carryIn) :
    (Stmt.madd2 rd ra rb rk).outcome W s.readCell = .next (.issue rd rk (.madd2 a b 0 carryIn)) := by
  rw [readOperand_eq] at ha hb
  exact Stmt.outcome_next_iff.mpr ⟨hfits, by simpa [Stmt.writes] using hne, by simp [Stmt.action, ha, hb, hk]⟩

/-- A readable MADD3 with two destinations comes to the issue of its transaction. -/
theorem madd3_outcome (hne : rd ≠ rk) (hfits : (Stmt.madd3 rd ra rb rc rk).fits W = true)
    (ha : readOperand s ra = some a) (hb : readOperand s rb = some b) (hc : readOperand s rc = some addend)
    (hk : s.readCell rk = some carryIn) :
    (Stmt.madd3 rd ra rb rc rk).outcome W s.readCell = .next (.issue rd rk (.madd3 a b addend carryIn)) := by
  rw [readOperand_eq] at ha hb hc
  exact Stmt.outcome_next_iff.mpr ⟨hfits, by simpa [Stmt.writes] using hne, by simp [Stmt.action, ha, hb, hc, hk]⟩

/-- An operand whose value is a Word of the build is an operand of the build. -/
theorem Operand.fits_of_value {o : Operand} {v : Word} (h : readOperand s o = some v) (hv : v.Fits W.bits) :
    o.fits W = true := by
  cases o with
  | cell c => rfl
  | imm u =>
    obtain rfl : u = v := Option.some.inj h
    exact decide_eq_true hv

end Madd

/-- Settles O42: what a readable MADD statement comes to is the issue of its transaction. -/
theorem harnessIssuesItsTransaction : Obligations.HarnessIssuesItsTransaction := by
  intro s rd rk ra rb rc a b addend carryIn hr hne ha hb hk
  refine ⟨fun hp hfits hfree => ?madd2, fun hp hfits hc hfree => ?madd3⟩
  case madd2 =>
    rw [step_of_stmt hr hp hfree, madd2_outcome hne hfits ha hb hk, issue_eq]
    rfl
  case madd3 =>
    rw [step_of_stmt hr hp hfree, madd3_outcome hne hfits ha hb hc hk, issue_eq]
    rfl

/-- An issue in a settled combinational build writes the exact outputs to two cells and to the ports, and takes its
request off the pins again (spec/30_encoding.md R67). -/
theorem issued_untimed_spec {rd rk : CellName} {i : Instr} (hl : s.cfg.latency = 0) (hfl : s.inFlight = [])
    (hne : rd ≠ rk) (hwf : i.wf s.cfg.width = true) :
    let t := issued rd rk i s
    let r := sumResponse s.cfg.width (exactSum i)
    t.pc = s.pc + 1 ∧ t.rsp = some r ∧ t.readCell rd = some r.lo ∧ t.readCell rk = some r.carryOut ∧
      (∀ x, x ≠ rd → x ≠ rk → t.readCell x = s.readCell x) ∧
      t.cfg = s.cfg ∧ t.request = none ∧ t.program = s.program ∧ t.inFlight = [] := by
  intro t r
  have ht : t = writeBack (some ⟨rd, rk⟩) r ((s.advance.present (encode s.cfg.width i)).sampled.driveOutputs r) := by
    simp only [t, issued, respond_eq_sumResponse hwf]
    exact taken_untimed hl
  rw [ht]
  refine ⟨rfl, rfl, ?_, ?_, fun x hd hk => ?_, rfl, rfl, rfl, hfl⟩
  · simp [readCell_writeBack_some, hne.symm]
  · simp [readCell_writeBack_some]
  · exact readCell_writeBack_of_not_owned _ _ (by simp [destCells, hd, hk])

/-- Settles O40: the statement issues MADD2 of the old values, whose exact outputs are written back. -/
theorem harnessMadd2WritesBack : Obligations.HarnessMadd2WritesBack := by
  intro s rd rk ra rb a b carryIn n S hl hfl hr hp hne ha hb hk hafits hbfits hkfits
  have hfits : (Stmt.madd2 rd ra rb rk).fits s.cfg.width = true := by
    simp [Stmt.fits, Operand.fits_of_value ha hafits, Operand.fits_of_value hb hbfits]
  have hwf : (Instr.madd2 a b 0 carryIn).wf s.cfg.width = true :=
    (operandsFit_iff ..).mpr ⟨hafits, hbfits, zero_fits _, hkfits⟩
  refine ⟨issued rd rk (.madd2 a b 0 carryIn) s, ?_, issued_untimed_spec hl hfl hne hwf⟩
  rw [step_of_stmt_settled hr hfl hp, madd2_outcome hne hfits ha hb hk]
  rfl

/-- Settles O41: the statement issues MADD3 of the old values, whose exact outputs are written back. -/
theorem harnessMadd3WritesBack : Obligations.HarnessMadd3WritesBack := by
  intro s rd rk ra rb rc a b addend carryIn n S hl hfl hr hp hne ha hb hc hk hafits hbfits hcfits hkfits
  have hfits : (Stmt.madd3 rd ra rb rc rk).fits s.cfg.width = true := by
    simp [Stmt.fits, Operand.fits_of_value ha hafits, Operand.fits_of_value hb hbfits,
      Operand.fits_of_value hc hcfits]
  have hwf : (Instr.madd3 a b addend carryIn).wf s.cfg.width = true :=
    (operandsFit_iff ..).mpr ⟨hafits, hbfits, hcfits, hkfits⟩
  refine ⟨issued rd rk (.madd3 a b addend carryIn) s, ?_, issued_untimed_spec hl hfl hne hwf⟩
  rw [step_of_stmt_settled hr hfl hp, madd3_outcome hne hfits ha hb hc hk]
  rfl

theorem ownedIn_append_self {fl : List Pending} {p : Pending} {c : CellName} (h : c ∈ destCells p.dest) :
    ownedIn (fl ++ [p]) c = true :=
  List.any_eq_true.mpr ⟨p, List.mem_append_right _ List.mem_cons_self, decide_eq_true h⟩

/-- Settles O48: in a timed build the issued transaction is the youngest on the scoreboard. -/
theorem timedIssueOwnsItsCells : Obligations.TimedIssueOwnsItsCells := by
  intro s rd rk i hl hwf
  have hissue := issue_eq rd rk i s
  rw [issued, taken_timed (by exact hl), respond_eq_sumResponse hwf] at hissue
  exact ⟨_, _, hissue, rfl, rfl, rfl, rfl, rfl, ownedIn_append_self (by simp [destCells]),
    ownedIn_append_self (by simp [destCells]), rfl, rfl⟩

end Statement

/-- Two statements are independent when neither writes what the other reads or writes. -/
theorem independent_iff {x y : Stmt} : independent x y = true ↔
    (∀ c ∈ x.writes, c ∉ y.reads ∧ c ∉ y.writes) ∧ ∀ c ∈ y.writes, c ∉ x.reads ∧ c ∉ x.writes := by
  simp [independent]

theorem runStmt_next_iff {st : Stmt} {s t : State} :
    runStmt st s = .next t ↔ ∃ a, st.outcome s.cfg.width s.readCell = .next a ∧ a.apply s = t := by
  rw [runStmt_eq, mapNext_eq_next_iff]

/-- A statement comes to the same after an action that writes no cell it reads. -/
theorem Stmt.outcome_apply {st : Stmt} {a : Action} {s : State} (hl : s.cfg.latency = 0)
    (h : ∀ c ∈ st.reads, c ∉ a.writes) :
    st.outcome (a.apply s).cfg.width (a.apply s).readCell = st.outcome s.cfg.width s.readCell := by
  rw [Action.apply_cfg]
  exact Stmt.outcome_congr fun c hc => by
    rw [a.readCell_apply_untimed hl, Action.effect_eq_none_iff.mpr (h c hc), Option.none_or]

theorem Stmt.outcome_writes {W : Width} {read : CellName → Option Word} {st : Stmt} {a : Action}
    (h : st.outcome W read = .next a) : a.writes = st.writes :=
  Stmt.action_writes (Stmt.outcome_next_iff.mp h).2.2

/-- In a combinational build two actions that write no common cell leave the same cells in either order. -/
theorem Action.readCell_apply_comm {a b : Action} {s : State} (hl : s.cfg.latency = 0)
    (hapart : ∀ c ∈ a.writes, c ∉ b.writes) (c : CellName) :
    (a.apply (b.apply s)).readCell c = (b.apply (a.apply s)).readCell c := by
  have hone : a.effect s.cfg c = none ∨ b.effect s.cfg c = none := by
    rw [effect_eq_none_iff, effect_eq_none_iff, ← imp_iff_not_or]
    exact hapart c
  have hla : (a.apply s).cfg.latency = 0 := by rw [apply_cfg, hl]
  have hlb : (b.apply s).cfg.latency = 0 := by rw [apply_cfg, hl]
  rw [a.readCell_apply_untimed hlb, b.readCell_apply_untimed hla, b.readCell_apply_untimed hl,
    a.readCell_apply_untimed hl, apply_cfg, apply_cfg, ← Option.or_assoc, or_comm_of_none hone, Option.or_assoc]

/-- Settles O51: each statement comes to the same action before and after the other, and the two actions commute. -/
theorem independentStatementsCommute : Obligations.IndependentStatementsCommute := by
  intro s t u x y hl hindep hx hy
  obtain ⟨hxy, hyx⟩ := independent_iff.mp hindep
  obtain ⟨a, ha, rfl⟩ := runStmt_next_iff.mp hx
  obtain ⟨b, hb, rfl⟩ := runStmt_next_iff.mp hy
  have hawrites := Stmt.outcome_writes ha
  have hbwrites := Stmt.outcome_writes hb
  have hyreads : ∀ c ∈ y.reads, c ∉ a.writes := fun c hc hca => (hxy c (hawrites ▸ hca)).1 hc
  have hxreads : ∀ c ∈ x.reads, c ∉ b.writes := fun c hc hcb => (hyx c (hbwrites ▸ hcb)).1 hc
  have happart : ∀ c ∈ a.writes, c ∉ b.writes := fun c hca => hbwrites ▸ (hxy c (hawrites ▸ hca)).2
  refine ⟨b.apply s, a.apply (b.apply s), ?_, ?_, Action.readCell_apply_comm hl happart⟩
  · exact runStmt_next_iff.mpr ⟨b, (Stmt.outcome_apply hl hyreads).symm.trans hb, rfl⟩
  · exact runStmt_next_iff.mpr ⟨a, (Stmt.outcome_apply hl hxreads).trans ha, rfl⟩

end Sys2Proof.Machine
end

section
/-! PROOFS. Every transaction completes: how near a tick brings it to its completion, while the machine waits and while
it runs (spec/70_reset_and_hazards.md R153, R156; spec/20_memory.md R43). -/

namespace Sys2Proof.Machine

open State

/-- A bound on the ticks in which all transactions of a list complete: one for each, and its wait. -/
def load (fl : List Pending) : Nat := (fl.map fun p => p.wait + 1).sum

theorem load_append (fl gl : List Pending) : load (fl ++ gl) = load fl + load gl := by simp [load]

theorem load_cons (p : Pending) (fl : List Pending) : load (p :: fl) = p.wait + 1 + load fl := rfl

theorem load_countDown_le (fl : List Pending) : load (countDown fl) ≤ load fl := by
  induction fl with
  | nil => exact Nat.le_refl _
  | cons p fl ih => exact Nat.add_le_add (Nat.add_le_add_right (Nat.sub_le ..) 1) ih

theorem countDown_append (fl gl : List Pending) : countDown (fl ++ gl) = countDown fl ++ countDown gl :=
  List.map_append

theorem countDown_cons (p : Pending) (fl : List Pending) :
    countDown (p :: fl) = { p with wait := p.wait - 1 } :: countDown fl := rfl

/-- A tick completes a transaction `p` or brings it nearer to its completion: in the waits of `p` and of those before it,
which no younger one adds to (log 12). -/
theorem tick_completes_or_nears {s : State} {older younger : List Pending} {p : Pending}
    (hfl : s.inFlight = older ++ p :: younger) (hapart : ∀ d ∈ p.dest, d.rd ≠ d.rk) :
    Completed p (tick s) ∨ ∃ older' wait younger', (tick s).inFlight = older' ++ { p with wait := wait } :: younger' ∧
      load older' + wait < load older + p.wait := by
  have hload := load_countDown_le older
  obtain ⟨hwaits, htick⟩ | ⟨before, q, after, hsplit, hbefore, -, htick⟩ := tick_spec s
  · have hp := hwaits p (hfl ▸ List.mem_append_right _ List.mem_cons_self)
    refine .inr ⟨countDown older, p.wait - 1, countDown younger, ?_, by omega⟩
    rw [htick, hfl, countDown_append, countDown_cons]
  · have hinFlight : (tick s).inFlight = countDown (before ++ after) := htick ▸ retire_inFlight ..
    have hcompleted (hq : q = p) : Completed p (tick s) := htick ▸ hq ▸ retire_completed (hq ▸ hapart) _
    rcases List.append_eq_append_iff.mp (hsplit.symm.trans hfl) with ⟨mid, rfl, hmid⟩ | ⟨mid, rfl, hmid⟩
    · cases mid with
      | nil => exact .inl (hcompleted (List.cons.inj hmid).1)
      | cons r mid =>
        obtain ⟨rfl, rfl⟩ : q = r ∧ after = mid ++ p :: younger := List.cons.inj hmid
        have hmid := load_countDown_le (before ++ mid)
        refine .inr ⟨countDown (before ++ mid), p.wait - 1, countDown younger, ?_, ?_⟩
        · rw [hinFlight, ← List.append_assoc, countDown_append, countDown_cons]
        · rw [load_append] at hmid
          rw [load_append, load_cons]
          omega
    · cases mid with
      | nil => exact .inl (hcompleted (List.cons.inj hmid).1.symm)
      | cons r mid =>
        obtain ⟨rfl, rfl⟩ := List.cons.inj hmid
        have hp := hbefore p (List.mem_append_right _ List.mem_cons_self)
        refine .inr ⟨countDown older, p.wait - 1, countDown (mid ++ after), ?_, by omega⟩
        rw [hinFlight, List.append_assoc, List.cons_append, countDown_append, countDown_cons]

/-! ### While the machine waits -/

/-- While anything is in flight, a tick brings the scoreboard nearer to its end. -/
theorem load_tick_lt {s : State} (h : s.inFlight ≠ []) : load (tick s).inFlight < load s.inFlight := by
  obtain ⟨hwaits, htick⟩ | ⟨older, p, younger, hfl, -, -, htick⟩ := tick_spec s
  · obtain ⟨p, fl, hfl⟩ := List.exists_cons_of_ne_nil h
    have hp := hwaits p (hfl ▸ List.mem_cons_self)
    have hle := load_countDown_le fl
    rw [htick, hfl, countDown_cons, load_cons, load_cons]
    dsimp only
    omega
  · have hle := load_countDown_le (older ++ younger)
    rw [load_append] at hle
    rw [htick, retire_inFlight, hfl, load_append, load_cons]
    dsimp only
    omega

/-- What is in flight after a tick was in flight before it, with another wait. -/
theorem mem_inFlight_of_mem_tick {s : State} {q : Pending} (hq : q ∈ (tick s).inFlight) :
    ∃ p ∈ s.inFlight, { p with wait := p.wait - 1 } = q := by
  obtain ⟨-, htick⟩ | ⟨older, p, younger, hfl, -, -, htick⟩ := tick_spec s
  · rw [htick] at hq
    exact List.mem_map.mp hq
  · rw [htick, retire_inFlight] at hq
    obtain ⟨r, hr, rfl⟩ := List.mem_map.mp hq
    have hsub : (older ++ younger).Sublist s.inFlight := hfl ▸ (List.sublist_cons_self p younger).append_left older
    exact ⟨r, hsub.subset hr, rfl⟩

/-- A tick that empties the scoreboard completes the one transaction on it. -/
theorem tick_empties {s : State} (h : s.inFlight ≠ []) (hempty : (tick s).inFlight = []) :
    ∃ p, s.inFlight = [p] ∧ (tick s).rsp = some p.rsp := by
  obtain ⟨-, htick⟩ | ⟨older, p, younger, hfl, -, -, htick⟩ := tick_spec s
  · rw [htick] at hempty
    exact absurd (List.map_eq_nil_iff.mp hempty) h
  · rw [htick, retire_inFlight] at hempty
    obtain ⟨rfl, rfl⟩ := List.append_eq_nil_iff.mp (List.map_eq_nil_iff.mp hempty)
    exact ⟨p, hfl, htick ▸ retire_rsp ..⟩

/-- `n` is the least number of steps of waiting after which nothing is in flight. -/
inductive DrainsIn : Nat → State → Prop where
  | settled {s : State} : s.inFlight = [] → DrainsIn 0 s
  | waits {n : Nat} {s : State} : s.inFlight ≠ [] → DrainsIn n (tick s) → DrainsIn (n + 1) s

theorem exists_drainsIn (s : State) : ∃ n, DrainsIn n s := by
  by_cases h : s.inFlight = []
  · exact ⟨0, .settled h⟩
  · have hlt := load_tick_lt h
    obtain ⟨n, hn⟩ := exists_drainsIn (tick s)
    exact ⟨n + 1, .waits h hn⟩
termination_by load s.inFlight

namespace DrainsIn
variable {n : Nat} {s : State}

theorem ticks_inFlight_eq_nil (h : DrainsIn n s) : (ticks n s).inFlight = [] := by
  induction h with
  | settled h => exact h
  | waits _ _ ih => exact ih

theorem ticks_inFlight_ne_nil (h : DrainsIn n s) {m : Nat} (hm : m < n) : (ticks m s).inFlight ≠ [] := by
  induction h generalizing m with
  | settled _ => exact absurd hm (Nat.not_lt_zero m)
  | waits hne _ ih =>
    cases m with
    | zero => exact hne
    | succ m => exact ih (Nat.lt_of_succ_lt_succ hm)

theorem readCell_ticks (h : DrainsIn n s) (hinv : s.Inv) (x : CellName) :
    (ticks n s).readCell x = (drain s).readCell x := by
  induction h with
  | settled h =>
    rw [readCell_drain, h]
    rfl
  | waits _ _ ih => exact (ih (tick_keeps_inv hinv)).trans (readCell_drain_tick hinv x)

/-- Every transaction in flight completes on the way. -/
theorem completes (h : DrainsIn n s) (hinv : s.Inv) {p : Pending} (hp : p ∈ s.inFlight) :
    ∃ m, 0 < m ∧ m ≤ n ∧ Completed p (ticks m s) := by
  induction h generalizing p with
  | settled h => exact absurd (h ▸ hp) List.not_mem_nil
  | waits _ _ ih =>
    obtain ⟨older, younger, hfl⟩ := List.append_of_mem hp
    obtain hdone | ⟨older', wait, younger', hfl', -⟩ := tick_completes_or_nears hfl (hinv.destsApart p hp)
    · exact ⟨1, Nat.one_pos, Nat.succ_le_succ (Nat.zero_le _), hdone⟩
    · obtain ⟨m, -, hle, hdone⟩ :=
        ih (tick_keeps_inv hinv) (hfl' ▸ List.mem_append_right older' List.mem_cons_self)
      exact ⟨m + 1, Nat.succ_pos m, Nat.succ_le_succ hle, hdone⟩

/-- The last transaction to complete is the only one in flight a step before, and the ports then show its answer. -/
theorem last_on_ports (h : DrainsIn n s) (hne : s.inFlight ≠ []) :
    ∃ p ∈ s.inFlight, ∃ k wait, n = k + 1 ∧ (ticks k s).inFlight = [{ p with wait := wait }] ∧
      (ticks n s).rsp = some p.rsp := by
  induction h with
  | settled h => exact absurd h hne
  | @waits n s _ hdrains ih =>
    cases hdrains with
    | settled hempty =>
      obtain ⟨p, hfl, hrsp⟩ := tick_empties hne hempty
      exact ⟨p, hfl ▸ List.mem_cons_self, 0, p.wait, rfl, hfl, hrsp⟩
    | waits hstill _ =>
      obtain ⟨q, hq, k, wait, hk, hlast, hrsp⟩ := ih hstill
      obtain ⟨p, hp, rfl⟩ := mem_inFlight_of_mem_tick hq
      exact ⟨p, hp, k + 1, wait, congrArg Nat.succ hk, hlast, hrsp⟩

end DrainsIn

/-- Settles O49: the scoreboard drains (`exists_drainsIn`), with the facts about `DrainsIn`, each by induction on it. -/
theorem everyTransactionCompletes : Obligations.EveryTransactionCompletes := by
  intro s h
  obtain ⟨n, hn⟩ := exists_drainsIn s
  exact ⟨n, hn.ticks_inFlight_eq_nil, fun _ => hn.ticks_inFlight_ne_nil, hn.readCell_ticks h,
    fun _ hp => hn.completes h hp, hn.last_on_ports⟩

/-! ### While the machine runs -/

theorem taken_rsp_timed {dest : Option Dest} {r : Response} {s : State} (hl : s.cfg.latency ≠ 0) :
    (taken dest r s).rsp = s.rsp := by rw [taken_timed hl]; rfl

/-- In a timed build no action changes the ports (R151). -/
theorem Action.apply_rsp_timed (a : Action) {s : State} (hl : s.cfg.latency ≠ 0) : (a.apply s).rsp = s.rsp := by
  cases a with
  | wait => rfl
  | take i => exact taken_rsp_timed hl
  | write rd v => rfl
  | issue rd rk i => exact taken_rsp_timed (s := s.advance.present _) hl

/-- Settles O53: in a timed build a tick changes the ports and an action does not. -/
theorem timedPortsChangeOnlyAtCompletion : Obligations.TimedPortsChangeOnlyAtCompletion := by
  intro s t hl h
  obtain ⟨a, -, rfl⟩ := step_next_inv h
  exact a.apply_rsp_timed (by rwa [tick_cfg])

theorem taken_inFlight (dest : Option Dest) (r : Response) (s : State) :
    ∃ new, (taken dest r s).inFlight = s.inFlight ++ new := by
  by_cases hl : s.cfg.latency = 0
  · exact ⟨[], by simp [taken_untimed hl]⟩
  · exact ⟨_, by rw [taken_timed hl]⟩

/-- An action takes nothing off the scoreboard, and puts a transaction after all others (log 24). -/
theorem Action.apply_inFlight (a : Action) (s : State) : ∃ new, (a.apply s).inFlight = s.inFlight ++ new := by
  cases a with
  | wait => exact ⟨[], (List.append_nil _).symm⟩
  | take i => exact taken_inFlight ..
  | write rd v => exact ⟨[], (List.append_nil _).symm⟩
  | issue rd rk i => exact taken_inFlight _ _ (s.advance.present _)

theorem step_inFlight {s t : State} (h : step s = .next t) : ∃ new, t.inFlight = (tick s).inFlight ++ new := by
  obtain ⟨a, -, rfl⟩ := step_next_inv h
  exact a.apply_inFlight _

theorem run_succ_of_next {s t : State} (h : step s = .next t) (k : Nat) : core.run (k + 1) s = core.run k t := by
  have hstep : core.step s = .next t := h
  simp only [Host.Core.run, hstep]

theorem run_one (s : State) : core.run 1 s = step s := by
  have hstep : core.step s = step s := rfl
  simp only [Host.Core.run, hstep]
  cases step s <;> rfl

/-- The run from `s` comes to show the response `r` on the ports, unless it stops before. -/
def ShowsOrStops (r : Response) (s : State) : Prop :=
  ∃ m, 0 < m ∧ ((∃ t, core.run m s = .next t ∧ t.rsp = some r) ∨ ∀ t, core.run m s ≠ .next t)

theorem ShowsOrStops.of_step {r : Response} {s t : State} (h : step s = .next t) (ht : ShowsOrStops r t) :
    ShowsOrStops r s := by
  obtain ⟨m, -, hm⟩ := ht
  rw [← run_succ_of_next h] at hm
  exact ⟨m + 1, Nat.succ_pos m, hm⟩

/-- Whatever a step issues, it brings the transactions in flight nearer to their completion, as the tick in it does. -/
theorem showsOrStops {s : State} {p : Pending} {older younger : List Pending} (hinv : s.Inv)
    (hfl : s.inFlight = older ++ p :: younger) : ShowsOrStops p.rsp s := by
  have hp : p ∈ s.inFlight := hfl ▸ List.mem_append_right older List.mem_cons_self
  by_cases hstep : ∃ t, step s = .next t
  · obtain ⟨t, ht⟩ := hstep
    obtain ⟨hrsp, -⟩ | ⟨older', wait, younger', hfl', hlt⟩ := tick_completes_or_nears hfl (hinv.destsApart p hp)
    · have hl : s.cfg.latency ≠ 0 := fun hl => List.ne_nil_of_mem hp (hinv.untimedSettled hl)
      have hports : t.rsp = (tick s).rsp := timedPortsChangeOnlyAtCompletion s t hl ht
      exact ⟨1, Nat.one_pos, .inl ⟨t, (run_one s).trans ht, hports.trans hrsp⟩⟩
    · obtain ⟨new, hnew⟩ := step_inFlight ht
      rw [hfl', List.append_assoc, List.cons_append] at hnew
      exact (showsOrStops (stepKeepsInv s t hinv ht) hnew).of_step ht
  · exact ⟨1, Nat.one_pos, .inr fun t ht => hstep ⟨t, (run_one s).symm.trans ht⟩⟩
termination_by load older + p.wait

/-- Settles O54: by induction on how near the transaction is to its completion. -/
theorem runningMachineShowsEveryAnswer : Obligations.RunningMachineShowsEveryAnswer := by
  intro s p h hp
  obtain ⟨older, younger, hfl⟩ := List.append_of_mem hp
  exact showsOrStops h hfl

end Sys2Proof.Machine
end
